-- ==== Sys2Proof/Word.lean ====
section
/-! DEFINITION. Widths of the values the spec computes with (00_scope.md R7 to R10): a byte, a four-byte word, a
128-bit block, a 16-bit command word and the 4-bit fields of a command word. -/

namespace Sys2Proof

/-- An element of GF(2^8) and a cell of the state matrix (R7, R100). -/
abbrev Byte := BitVec 8

/-- Four bytes: one word of the key schedule, one column of a block (R7, R68). -/
abbrev Word := BitVec 32

/-- Sixteen bytes: a block, a key, a round key, `din`, `key_in`, ST, AUX (R7, R20). -/
abbrev Block := BitVec 128

/-- The 16-bit command word on `cmd` (R80). -/
abbrev Cmd := BitVec 16

/-- A 4-bit field: RSV, IDX and the round counter RND (R32, R80). -/
abbrev Nibble := BitVec 4

end Sys2Proof
end

