-- ==== Sys2Proof/Config.lean ====
section
/-! DEFINITION. Fixed parameters of this hardware (00_scope.md R7, R8). The spec leaves no parameter open and no
datapath value open (R8, R16), so this file holds numbers only: there is no uninterpreted constant. -/

namespace Sys2Proof.Config

/-- NR, the number of rounds (R7); also the largest legal round-key index (R82). -/
abbrev rounds : Nat := 10

/-- NRK, the number of round keys (R7). -/
abbrev roundKeys : Nat := 11

/-- NW, the number of schedule words (R7). -/
abbrev scheduleWords : Nat := 44

/-- The number of assigned operation codes, 0x00 to 0x10 (R83). -/
abbrev opcodes : Nat := 17

/-- Busy edges after the accept edge of LOAD_KEY, ENCRYPT and DECRYPT (R8, R290). -/
abbrev busyEdges : Nat := 10

end Sys2Proof.Config
end

