-- ==== Sys2Proof/Syntax.lean ====
section
/-! DEFINITION. The 17 commands of spec/opcode_table.json (30_encoding.md R83), one constructor a row. A command names
its data registers implicitly by its opcode, and takes its data operands from the ports `din` and `key_in` at the
accept edge (R33, R81); the only operand in a command word is the round-key index IDX of the two indexed commands. -/

namespace Sys2Proof

/-- The commands (R83). `idx` is the 4-bit field IDX = cmd[11:8]; the legal values are 0 to 10 (R82). -/
inductive Instr where
  | nop
  | loadKey
  | encrypt
  | decrypt
  | loadState
  | subBytes
  | invSubBytes
  | shiftRows
  | invShiftRows
  | mixColumns
  | invMixColumns
  | addRoundKey (idx : Nibble)
  | readRoundKey (idx : Nibble)
  | sbox
  | invSbox
  | gfMul
  | clearStatus
deriving DecidableEq, Repr

end Sys2Proof
end

