-- ==== Sys2Proof/WellFormed.lean ====
section
/-! DEFINITION. Which commands are legal (30_encoding.md R82 to R85): a round-key index is at most 10. -/

namespace Sys2Proof

/-- A round-key index names one of RK(0) to RK(10) (R82: "Only 0..10 are legal"). -/
def legalIndex (idx : Nibble) : Bool :=
  decide (idx.toNat ≤ Config.rounds)

/-- The legal commands: the 37 words of R85. Only ADD_ROUND_KEY and READ_ROUND_KEY carry something to check. -/
def Instr.wf : Instr → Bool
  | .nop => true
  | .loadKey => true
  | .encrypt => true
  | .decrypt => true
  | .loadState => true
  | .subBytes => true
  | .invSubBytes => true
  | .shiftRows => true
  | .invShiftRows => true
  | .mixColumns => true
  | .invMixColumns => true
  | .addRoundKey idx => legalIndex idx
  | .readRoundKey idx => legalIndex idx
  | .sbox => true
  | .invSbox => true
  | .gfMul => true
  | .clearStatus => true

end Sys2Proof
end

