-- ==== Sys2Proof/Decode.lean ====
section
/-! DEFINITION. The decoder and the encoder of the one 16-bit command format (30_encoding.md R80 to R87). The decoder
is total over all 65536 words and names its two rejections (R84). -/

namespace Sys2Proof

/-- Field OP = cmd[7:0] (R80). -/
def opField (c : Cmd) : Byte := c.extractLsb' 0 8

/-- Field IDX = cmd[11:8] (R80). -/
def idxField (c : Cmd) : Nibble := c.extractLsb' 8 4

/-- Field RSV = cmd[15:12] (R80). -/
def rsvField (c : Cmd) : Nibble := c.extractLsb' 12 4

/-- The three results of the decoder (R84). `badIndex` keeps the command whose index is out of range, so that its
meaning records the error; see notes/assumptions/5.md. -/
inductive Decoded where
  /-- An undefined OP, RSV ≠ 0, or IDX ≠ 0 on a command without an index (R85): raises ILLEGAL_COMMAND. -/
  | illegal
  /-- ADD_ROUND_KEY or READ_ROUND_KEY with IDX in 11 to 15 (R84, R85): raises BAD_ROUND_INDEX. -/
  | badIndex (i : Instr)
  /-- One of the 37 legal commands (R85). -/
  | ok (i : Instr)
deriving DecidableEq, Repr

/-- The opcode map (R83); `none` for the unassigned values 0x11 to 0xFF. -/
def commandOf (op : Byte) (idx : Nibble) : Option Instr :=
  match op.toNat with
  | 0x00 => some .nop
  | 0x01 => some .loadKey
  | 0x02 => some .encrypt
  | 0x03 => some .decrypt
  | 0x04 => some .loadState
  | 0x05 => some .subBytes
  | 0x06 => some .invSubBytes
  | 0x07 => some .shiftRows
  | 0x08 => some .invShiftRows
  | 0x09 => some .mixColumns
  | 0x0A => some .invMixColumns
  | 0x0B => some (.addRoundKey idx)
  | 0x0C => some (.readRoundKey idx)
  | 0x0D => some .sbox
  | 0x0E => some .invSbox
  | 0x0F => some .gfMul
  | 0x10 => some .clearStatus
  | _ => none

/-- OP 0x0B and 0x0C, the two opcodes that use IDX (R80, R84). -/
def indexedOp (op : Byte) : Bool :=
  op == 0x0B#8 || op == 0x0C#8

/-- `decode(cmd)`, its tests in R84's order: RSV, then OP, then the index. -/
def decode (c : Cmd) : Decoded :=
  if rsvField c ≠ 0#4 then .illegal
  else
    match commandOf (opField c) (idxField c) with
    | none => .illegal
    | some i =>
      if indexedOp (opField c) then
        if legalIndex (idxField c) then .ok i else .badIndex i
      else if idxField c ≠ 0#4 then .illegal
      else .ok i

/-- OP of each command (R83). -/
def Instr.opcode : Instr → Byte
  | .nop => 0x00#8
  | .loadKey => 0x01#8
  | .encrypt => 0x02#8
  | .decrypt => 0x03#8
  | .loadState => 0x04#8
  | .subBytes => 0x05#8
  | .invSubBytes => 0x06#8
  | .shiftRows => 0x07#8
  | .invShiftRows => 0x08#8
  | .mixColumns => 0x09#8
  | .invMixColumns => 0x0A#8
  | .addRoundKey _ => 0x0B#8
  | .readRoundKey _ => 0x0C#8
  | .sbox => 0x0D#8
  | .invSbox => 0x0E#8
  | .gfMul => 0x0F#8
  | .clearStatus => 0x10#8

/-- IDX of each command: the index of the two indexed commands, 0 of every other (R80). -/
def Instr.index : Instr → Nibble
  | .nop => 0#4
  | .loadKey => 0#4
  | .encrypt => 0#4
  | .decrypt => 0#4
  | .loadState => 0#4
  | .subBytes => 0#4
  | .invSubBytes => 0#4
  | .shiftRows => 0#4
  | .invShiftRows => 0#4
  | .mixColumns => 0#4
  | .invMixColumns => 0#4
  | .addRoundKey idx => idx
  | .readRoundKey idx => idx
  | .sbox => 0#4
  | .invSbox => 0#4
  | .gfMul => 0#4
  | .clearStatus => 0#4

/-- The command word `RSV ‖ IDX ‖ OP` with RSV = 0 (R80, R83). -/
def encode (i : Instr) : Cmd :=
  0#4 ++ i.index ++ i.opcode

/-- The command word that a table row's bits `w` stand for: every bit from `nbits` up is 0. The table gives every row
16 bits, and a command is presented whole on `cmd[15:0]` (R80), so there is no byte order to apply. -/
def tableWord (nbits w : Nat) : Cmd :=
  BitVec.ofNat 16 (w % 2 ^ nbits)

/-- The command the decoder reads from a table row's word; `none` where the word is illegal (R85). A word whose index
is out of range matches its row and raises BAD_ROUND_INDEX (R84), so the command it names is given. -/
def decodeTableWord (nbits w : Nat) : Option Instr :=
  match decode (tableWord nbits w) with
  | .illegal => none
  | .badIndex i => some i
  | .ok i => some i

end Sys2Proof
end

