-- ==== Sys2Proof/Machine/Bytes.lean ====
section
/-! DEFINITION. The byte, column and matrix views of the spec's values (00_scope.md R9, R10; 20_memory.md R67 to R69).
Byte 0 is the most significant byte everywhere, and the state matrix is filled column by column. -/

namespace Sys2Proof.Machine

/-- `byte(v, i) = v[127-8i : 120-8i]`, for i = 0 to 15 (R10, R67). -/
def byte (v : Block) (i : Nat) : Byte := v.extractLsb' (120 - 8 * i) 8

/-- `wbyte(w, k) = w[31-8k : 24-8k]`, for k = 0 to 3 (R10, R68). -/
def wbyte (w : Word) (k : Nat) : Byte := w.extractLsb' (24 - 8 * k) 8

/-- `col(v, c) = v[127-32c : 96-32c]`, for c = 0 to 3 (R10). -/
def col (v : Block) (c : Nat) : Word := v.extractLsb' (96 - 32 * c) 32

/-- `s[r][c] = byte(v, 4c + r)`, the 4x4 state matrix of a block (R10, R24). -/
def cell (v : Block) (r c : Nat) : Byte := byte v (4 * c + r)

/-- The block whose byte i is `f i` (R67). -/
def ofBytes (f : Nat → Byte) : Block :=
  f 0 ++ f 1 ++ f 2 ++ f 3 ++ f 4 ++ f 5 ++ f 6 ++ f 7 ++
  f 8 ++ f 9 ++ f 10 ++ f 11 ++ f 12 ++ f 13 ++ f 14 ++ f 15

/-- The block whose matrix has `f r c` at row r and column c (R10). -/
def ofCells (f : Nat → Nat → Byte) : Block :=
  ofBytes fun i => f (i % 4) (i / 4)

/-- The word whose byte k is `f k` (R68). -/
def wordOfBytes (f : Nat → Byte) : Word :=
  f 0 ++ f 1 ++ f 2 ++ f 3

/-- The block whose column c is `f c` (R10, R69). -/
def ofCols (f : Nat → Word) : Block :=
  f 0 ++ f 1 ++ f 2 ++ f 3

/-- `zext_128` of a byte: the byte at bits [7:0] and 0 above (R9, R69). -/
def zextByte (b : Byte) : Block := b.setWidth 128

end Sys2Proof.Machine
end

