-- ==== Sys2Proof/Machine/State.lean ====
section
/-! DEFINITION. The registers of the core (10_state.md R24 to R32), the input ports (R20), the reasons a step can
stop, and the state right after reset (70_reset_and_hazards.md R271). Plain data throughout. -/

namespace Sys2Proof.Machine

/-- The round-key store RKS: W[0..43], 44 words of 32 bits (R26, R60). -/
abbrev RoundKeyStore := Vector Word 44

/-- The 2-bit register PHASE (R31). -/
inductive Phase where
  /-- 0: no command in progress. -/
  | idle
  /-- 1: key expansion. -/
  | kexp
  /-- 2: forward cipher. -/
  | enc
  /-- 3: inverse cipher. -/
  | dec
deriving DecidableEq, Repr

/-- The 2-bit register ECODE and the errors a command can raise (R29, R241). -/
inductive ErrorCode where
  /-- 0: no error since the last reset or CLEAR_STATUS. -/
  | noError
  /-- 1: the command word decodes to ILLEGAL. -/
  | illegalCommand
  /-- 2: ADD_ROUND_KEY or READ_ROUND_KEY with IDX in 11 to 15. -/
  | badRoundIndex
  /-- 3: a command that reads W while KV = 0. -/
  | noKey
deriving DecidableEq, Repr

/-- The values the host drives on the input ports at one rising edge of `clk` (R20, R256). The levels are always
defined bits: notes/assumptions/6.md. -/
structure Ports where
  /-- `rst`, synchronous and active high (R270). -/
  rst : Bool
  /-- `cmd_valid`: the host offers a command on `cmd`. -/
  cmdValid : Bool
  /-- `cmd`, the command word (R80). -/
  cmd : Cmd
  /-- `din`, the data operand. -/
  din : Block
  /-- `key_in`, the key operand of LOAD_KEY. -/
  keyIn : Block
deriving DecidableEq, Repr

/-- A host that offers nothing: `rst` = 0, `cmd_valid` = 0, the operand ports at 0 (they are not read, R37). -/
def Ports.quiet : Ports :=
  { rst := false, cmdValid := false, cmd := 0#16, din := 0#128, keyIn := 0#128 }

/-- The state of the core, and what the host will drive at the coming edges. -/
@[ext]
structure State where
  /-- ST, the state matrix (R24). -/
  st : Block
  /-- AUX, the auxiliary result register (R25). -/
  aux : Block
  /-- W[0..43], the round-key store (R26). -/
  w : RoundKeyStore
  /-- KV, the key-valid flag (R27). -/
  kv : Bool
  /-- DONE, the completion flag (R28). -/
  done : Bool
  /-- ERR, the sticky error flag (R29). -/
  err : Bool
  /-- ECODE, the code of the first error (R29). -/
  ecode : ErrorCode
  /-- PHASE (R31). -/
  phase : Phase
  /-- RND, the round counter (R32). -/
  rnd : Nibble
  /-- The model's own field, not a register of the core: the ports at the coming edges, the next edge first. When the
  list is empty the host is quiet (notes/assumptions/1.md). -/
  drive : List Ports
deriving DecidableEq, Repr

/-- Why a step can stop with a fault. -/
inductive Fault where
  /-- Raised by an edge with `rst` = 0 in a state whose (PHASE, RND) breaks the invariant of R35. Such a state is
  unreachable from reset, its behaviour is unspecified, and "A model should fault in it" (R35, D30, U4). Safe: the
  model stops where the hardware would do something unspecified. -/
  | sequencerOutsideInvariant
deriving DecidableEq, Repr

/-- Why a step can be refused. Every command of the table has its meaning, so no step is refused. -/
inductive Refusal where
  /-- Raised by an arm of exec whose command has no meaning yet; there is none left. Safe: it stops. -/
  | notModelled (mnemonic : String)
deriving DecidableEq, Repr

/-- The state right after a reset edge (R271), with a quiet host; where a run starts (notes/assumptions/10.md). W is
not reset: its words after power-up and reset are unspecified, and zero is a DESIGN CHOICE of this model
(notes/assumptions/2.md) that no command can read, since KV = 0. -/
def State.reset : State :=
  { st := 0#128, aux := 0#128, w := Vector.replicate 44 0#32, kv := false, done := false, err := false,
    ecode := .noError, phase := .idle, rnd := 0#4, drive := [] }

end Sys2Proof.Machine
end

