-- ==== Sys2Proof/Machine/Operands.lean ====
section
/-! DEFINITION. The operand forms of the commands (30_encoding.md R81, R82; 20_memory.md R69). Data operands come from
the ports at the accept edge; a command ignores every port bit it does not read. -/

namespace Sys2Proof.Machine

/-- The levels on the input ports at the coming edge: the head of the drive list, or a quiet host. -/
def State.ports (s : State) : Ports := s.drive.headD Ports.quiet

/-- The block operand of LOAD_STATE, ENCRYPT and DECRYPT: `din[127:0]` (R81). -/
def blockOperand (s : State) : Block := s.ports.din

/-- The byte operand of SBOX and INV_SBOX, and operand b of GF_MUL: `din[7:0]` (R69, R81). -/
def byteOperand (s : State) : Byte := s.ports.din.extractLsb' 0 8

/-- Operand a of GF_MUL: `din[15:8]` (R69, R81). -/
def upperByteOperand (s : State) : Byte := s.ports.din.extractLsb' 8 8

/-- The key operand of LOAD_KEY: `key_in[127:0]` (R81). -/
def keyOperand (s : State) : Block := s.ports.keyIn

/-- `r = zext(cmd[11:8])`, an unsigned round-key index (R82). -/
def indexOperand (idx : Nibble) : Nat := idx.toNat

end Sys2Proof.Machine
end

