-- ==== Sys2Proof/Machine/Flags.lean ====
section
/-! DEFINITION. The flags and the output ports: the STATUS word, `cmd_ready`, `state_out` and `aux_out` (10_state.md
R21 to R23, R30, R31; 60_exceptions.md R241). -/

namespace Sys2Proof.Machine

/-- The encoding of PHASE (R31). -/
def Phase.bits : Phase → BitVec 2
  | .idle => 0#2
  | .kexp => 1#2
  | .enc => 2#2
  | .dec => 3#2

/-- The encoding of ECODE (R241). -/
def ErrorCode.bits : ErrorCode → BitVec 2
  | .noError => 0#2
  | .illegalCommand => 1#2
  | .badRoundIndex => 2#2
  | .noKey => 3#2

/-- BUSY: PHASE ≠ IDLE (R14, R30). -/
def State.busy (s : State) : Bool := decide (s.phase ≠ .idle)

/-- The STATUS word, from bit 15 down: 0, RND, PHASE, ECODE, ERR, DONE, KV, BUSY (R30); the output `status` (R23). -/
def State.status (s : State) : BitVec 16 :=
  0#4 ++ s.rnd ++ s.phase.bits ++ s.ecode.bits ++ BitVec.ofBool s.err ++ BitVec.ofBool s.done ++
    BitVec.ofBool s.kv ++ BitVec.ofBool s.busy

/-- The output `cmd_ready`: PHASE = IDLE and `rst` = 0 (R21). -/
def State.cmdReady (s : State) : Bool := !s.busy && !s.ports.rst

/-- The output `state_out` (R22). -/
def State.stateOut (s : State) : Block := s.st

/-- The output `aux_out` (R22). -/
def State.auxOut (s : State) : Block := s.aux

/-- The (PHASE, RND) pairs of the invariant of R35. -/
def sequencerLegal (phase : Phase) (rnd : Nibble) : Bool :=
  match phase with
  | .idle => rnd == 0#4
  | .kexp => decide (1 ≤ rnd.toNat ∧ rnd.toNat ≤ 10)
  | .enc => decide (1 ≤ rnd.toNat ∧ rnd.toNat ≤ 10)
  | .dec => decide (rnd.toNat ≤ 9)

end Sys2Proof.Machine
end

