-- ==== Sys2Proof/Machine/Tables.lean ====
section
/-! DEFINITION. The constant tables: the S-box, its inverse and the round constants (20_memory.md R63 to R65;
41_sbox_gf.md R106, R107; 42_key_schedule.md R133). They are read-only, so they are constants and not state. A row of
a table is written as the block of its sixteen entries, in the order the spec prints them. The spec marks the entries
as general knowledge: notes/assumptions/11.md. -/

namespace Sys2Proof.Machine

/-- The rows of the forward S-box: row h holds SBOX[16h] to SBOX[16h + 15] (R106). -/
def sboxRows : List Block :=
  [0x637C777BF26B6FC53001672BFED7AB76#128,
   0xCA82C97DFA5947F0ADD4A2AF9CA472C0#128,
   0xB7FD9326363FF7CC34A5E5F171D83115#128,
   0x04C723C31896059A071280E2EB27B275#128] ++
  [0x09832C1A1B6E5AA0523BD6B329E32F84#128,
   0x53D100ED20FCB15B6ACBBE394A4C58CF#128,
   0xD0EFAAFB434D338545F9027F503C9FA8#128,
   0x51A3408F929D38F5BCB6DA2110FFF3D2#128] ++
  [0xCD0C13EC5F974417C4A77E3D645D1973#128,
   0x60814FDC222A908846EEB814DE5E0BDB#128,
   0xE0323A0A4906245CC2D3AC629195E479#128,
   0xE7C8376D8DD54EA96C56F4EA657AAE08#128] ++
  [0xBA78252E1CA6B4C6E8DD741F4BBD8B8A#128,
   0x703EB5664803F60E613557B986C11D9E#128,
   0xE1F8981169D98E949B1E87E9CE5528DF#128,
   0x8CA1890DBFE6426841992D0FB054BB16#128]

/-- The rows of the inverse S-box (R107). -/
def invSboxRows : List Block :=
  [0x52096AD53036A538BF40A39E81F3D7FB#128,
   0x7CE339829B2FFF87348E4344C4DEE9CB#128,
   0x547B9432A6C2233DEE4C950B42FAC34E#128,
   0x082EA16628D924B2765BA2496D8BD125#128] ++
  [0x72F8F66486689816D4A45CCC5D65B692#128,
   0x6C704850FDEDB9DA5E154657A78D9D84#128,
   0x90D8AB008CBCD30AF7E45805B8B34506#128,
   0xD02C1E8FCA3F0F02C1AFBD0301138A6B#128] ++
  [0x3A9111414F67DCEA97F2CFCEF0B4E673#128,
   0x96AC7422E7AD3585E2F937E81C75DF6E#128,
   0x47F11A711D29C5896FB7620EAA18BE1B#128,
   0xFC563E4BC6D279209ADBC0FE78CD5AF4#128] ++
  [0x1FDDA8338807C731B11210592780EC5F#128,
   0x60517FA919B54A0D2DE57A9F93C99CEF#128,
   0xA0E03B4DAE2AF5B0C8EBBB3C83539961#128,
   0x172B047EBA77D626E169146355210C7D#128]

/-- The entry at row `x[7:4]` and column `x[3:0]` (R106, R107). Both tables have 16 rows, so a row is always found. -/
def lookup (rows : List Block) (x : Byte) : Byte :=
  byte (rows.getD (x.extractLsb' 4 4).toNat 0#128) (x.extractLsb' 0 4).toNat

/-- `SBOX[x]` (R106). -/
def sbox (x : Byte) : Byte := lookup sboxRows x

/-- `INV_SBOX[y]` (R107). -/
def invSbox (y : Byte) : Byte := lookup invSboxRows y

/-- `RC[j]` for j = 1 to 10 (R133). RC[0] and RC above 10 do not exist and no rule reads them; a caller outside the
range would get 0 (notes/assumptions/4.md). -/
def rc (j : Nat) : Byte :=
  match j with
  | 1 => 0x01#8
  | 2 => 0x02#8
  | 3 => 0x04#8
  | 4 => 0x08#8
  | 5 => 0x10#8
  | 6 => 0x20#8
  | 7 => 0x40#8
  | 8 => 0x80#8
  | 9 => 0x1B#8
  | 10 => 0x36#8
  | _ => 0x00#8

end Sys2Proof.Machine
end

