-- ==== Sys2Proof/Machine/KeyExpansion.lean ====
section
/-! DEFINITION. The round-key store and the key schedule as pure functions (20_memory.md R60, R69; 42_key_schedule.md
R130 to R138). -/

namespace Sys2Proof.Machine

/-- `W[i]`, for i = 0 to 43. Every rule reads within the store; a caller outside it would get 0
(notes/assumptions/4.md). -/
def readWord (w : RoundKeyStore) (i : Nat) : Word := w[i]?.getD 0#32

/-- `W[i] <- v`, for i = 0 to 43; an index outside the store, which no rule uses, writes nothing. -/
def writeWord (w : RoundKeyStore) (i : Nat) (v : Word) : RoundKeyStore := w.setIfInBounds i v

/-- `RK(r) = W[4r] ‖ W[4r+1] ‖ W[4r+2] ‖ W[4r+3]`, for r = 0 to 10 (R138). -/
def roundKey (w : RoundKeyStore) (r : Nat) : Block := ofCols fun c => readWord w (4 * r + c)

/-- W[0..3] take the four words of the key, the other words stay (R130, R140). -/
def writeKeyWords (w : RoundKeyStore) (k : Block) : RoundKeyStore :=
  writeWord (writeWord (writeWord (writeWord w 0 (col k 0)) 1 (col k 1)) 2 (col k 2)) 3 (col k 3)

/-- `RotWord(w) = rotl_32(w, 8)` (R131). -/
def rotWord (w : Word) : Word := w.rotateLeft 8

/-- `SubWord(w)`: the S-box on each byte (R132). -/
def subWord (w : Word) : Word := wordOfBytes fun k => sbox (wbyte w k)

/-- `RC[j] << 24`: the round constant at byte 0, bits [31:24] (R68, R134). -/
def rcWord (j : Nat) : Word := (rc j).setWidth 32 <<< 24

/-- The value of word i, for i = 4 to 43, from words i-1 and i-4 (R134). -/
def expandedWord (w : RoundKeyStore) (i : Nat) : Word :=
  let temp := readWord w (i - 1)
  let temp := if i % 4 = 0 then subWord (rotWord temp) ^^^ rcWord (i / 4) else temp
  readWord w (i - 4) ^^^ temp

/-- `KeyExpansion(K)`, the per-word form (R134): words 0 to 3 are the key, then i = 4 to 43 in order. -/
def keyExpansion (k : Block) : RoundKeyStore :=
  (List.range' 4 40).foldl (fun w i => writeWord w i (expandedWord w i))
    (writeKeyWords (Vector.replicate 44 0#32) k)

/-- The four words of round key j from those of round key j-1, written to W[4j..4j+3] (R135, R141). -/
def expandRoundKey (w : RoundKeyStore) (j : Nat) : RoundKeyStore :=
  let t := subWord (rotWord (readWord w (4 * j - 1))) ^^^ rcWord j
  let n0 := readWord w (4 * j - 4) ^^^ t
  let n1 := readWord w (4 * j - 3) ^^^ n0
  let n2 := readWord w (4 * j - 2) ^^^ n1
  let n3 := readWord w (4 * j - 1) ^^^ n2
  writeWord (writeWord (writeWord (writeWord w (4 * j) n0) (4 * j + 1) n1) (4 * j + 2) n2) (4 * j + 3) n3

end Sys2Proof.Machine
end

