-- ==== Sys2Proof/Machine/Ops.lean ====
section
/-! DEFINITION. The shared operations on the registers: what commands and edges write, recording an error (the core's
only form of exception entry) and clearing it, reset, and moving on to the next edge. -/

namespace Sys2Proof.Machine

/-- ST <- v (R24). -/
def State.writeSt (s : State) (v : Block) : State := { s with st := v }

/-- AUX <- v (R25). -/
def State.writeAux (s : State) (v : Block) : State := { s with aux := v }

/-- W <- v (R26). -/
def State.writeStore (s : State) (v : RoundKeyStore) : State := { s with w := v }

/-- KV <- b (R27). -/
def State.writeKv (s : State) (b : Bool) : State := { s with kv := b }

/-- RND <- r (R32). -/
def State.writeRnd (s : State) (r : Nibble) : State := { s with rnd := r }

/-- A single-cycle command completes at its accept edge: DONE <- 1 (R28). -/
def State.complete (s : State) : State := { s with done := true }

/-- The accept of a multi-cycle command: PHASE and RND take their first values, DONE <- 0 (R28, R31, R32). -/
def State.startSequence (s : State) (p : Phase) (r : Nibble) : State :=
  { s with phase := p, rnd := r, done := false }

/-- The final step of a multi-cycle command: PHASE <- IDLE, RND <- 0, DONE <- 1 (R28, R31, R32). -/
def State.finishSequence (s : State) : State :=
  { s with phase := .idle, rnd := 0#4, done := true }

/-- `raise Error(code)`: ECODE keeps the first error since the last clear, ERR <- 1, DONE <- 1, and nothing else changes
(60_exceptions.md R244, R245). There is no trap and no handler (R247). -/
def State.recordError (s : State) (code : ErrorCode) : State :=
  { s with ecode := if s.err then s.ecode else code, err := true, done := true }

/-- The "return" from an error: ERR <- 0 and ECODE <- 0 (R222, R247). -/
def State.clearError (s : State) : State := { s with err := false, ecode := .noError }

/-- The outcome `act` of a command that reads W when a key is valid; NO_KEY recorded otherwise (R62, R242). -/
def State.requireKey (s : State) (act : State) : State :=
  if s.kv then act else s.recordError .noKey

/-- The outcome `act` of an indexed command when `idx` is in 0 to 10 and a key is valid; BAD_ROUND_INDEX recorded if the
index is out of range, else NO_KEY if there is no key (R242, R243). -/
def State.requireIndexAndKey (s : State) (idx : Nibble) (act : State) : State :=
  if 10 < indexOperand idx then s.recordError .badRoundIndex else s.requireKey act

/-- The reset edge: every register takes its reset value but W, which is not reset (70_reset_and_hazards.md R270,
R271). -/
def State.resetEdge (s : State) : State :=
  { s with st := 0#128, aux := 0#128, kv := false, done := false, err := false, ecode := .noError,
           phase := .idle, rnd := 0#4 }

/-- The edge is over: the host's next levels stand on the ports. -/
def State.advance (s : State) : State := { s with drive := s.drive.tail }

end Sys2Proof.Machine
end

