-- ==== Sys2Proof/Machine/Gf.lean ====
section
/-! DEFINITION. The GF(2^8) multiplier (41_sbox_gf.md R100 to R104). -/

namespace Sys2Proof.Machine

/-- `xtime(a)`, multiplication by x modulo 0x11B (R102). -/
def xtime (a : Byte) : Byte :=
  (a <<< 1) ^^^ (if a.getLsbD 7 then 0x1B#8 else 0x00#8)

/-- `n` iterations of the loop of R103 on the accumulator `p` and the operands `a` and `b`: accumulate when b[0] = 1,
then shift `a` left and reduce by 0x1B when its high bit was set, then shift `b` right. -/
def gfmulLoop : Nat → Byte → Byte → Byte → Byte
  | 0, p, _, _ => p
  | n + 1, p, a, b =>
    gfmulLoop n
      (if b.getLsbD 0 then p ^^^ a else p)
      (if a.getLsbD 7 then (a <<< 1) ^^^ 0x1B#8 else a <<< 1)
      (b >>> 1)

/-- `gfmul(a, b)`: always 8 iterations, whatever the operands (R103). -/
def gfmul (a b : Byte) : Byte := gfmulLoop 8 0x00#8 a b

end Sys2Proof.Machine
end

