-- ==== Sys2Proof/Machine/Transforms.lean ====
section
/-! DEFINITION. The seven round transforms as pure functions on blocks (43_round_transforms.md R160 to R166). -/

namespace Sys2Proof.Machine

/-- `SubBytes(v)`: every byte through the S-box (R160). -/
def subBytes (v : Block) : Block := ofBytes fun i => sbox (byte v i)

/-- `InvSubBytes(v)`: every byte through the inverse S-box (R161). -/
def invSubBytes (v : Block) : Block := ofBytes fun i => invSbox (byte v i)

/-- `ShiftRows(v)`: `s'[r][c] = s[r][(c + r) mod 4]` (R162). -/
def shiftRows (v : Block) : Block := ofCells fun r c => cell v r ((c + r) % 4)

/-- `InvShiftRows(v)`: `s'[r][c] = s[r][(c - r) mod 4]`, the remainder taken non-negative (R163, R9). -/
def invShiftRows (v : Block) : Block := ofCells fun r c => cell v r ((c + 4 - r) % 4)

/-- Row `r` of one column times a circulant matrix whose first row is (k0, k1, k2, k3): each row is the one above
rotated right by one place (R164), so entry (r, j) is the first row's entry (j - r) mod 4. -/
def circulantRow (k0 k1 k2 k3 : Byte) (r : Nat) (a0 a1 a2 a3 : Byte) : Byte :=
  match r with
  | 0 => gfmul k0 a0 ^^^ gfmul k1 a1 ^^^ gfmul k2 a2 ^^^ gfmul k3 a3
  | 1 => gfmul k3 a0 ^^^ gfmul k0 a1 ^^^ gfmul k1 a2 ^^^ gfmul k2 a3
  | 2 => gfmul k2 a0 ^^^ gfmul k3 a1 ^^^ gfmul k0 a2 ^^^ gfmul k1 a3
  | _ => gfmul k1 a0 ^^^ gfmul k2 a1 ^^^ gfmul k3 a2 ^^^ gfmul k0 a3

/-- Every column of `v` times the circulant matrix whose first row is (k0, k1, k2, k3). -/
def mixWith (k0 k1 k2 k3 : Byte) (v : Block) : Block :=
  ofCells fun r c => circulantRow k0 k1 k2 k3 r (cell v 0 c) (cell v 1 c) (cell v 2 c) (cell v 3 c)

/-- `MixColumns(v)`: coefficients {2,3,1,1} (R164); the circulant arrangement is D33, notes/assumptions/11.md. -/
def mixColumns (v : Block) : Block := mixWith 0x02#8 0x03#8 0x01#8 0x01#8 v

/-- `InvMixColumns(v)`: coefficients {14,11,13,9} (R165). -/
def invMixColumns (v : Block) : Block := mixWith 0x0E#8 0x0B#8 0x0D#8 0x09#8 v

/-- `AddRoundKey(v, k) = v ^ k` (R166). -/
def addRoundKey (v k : Block) : Block := v ^^^ k

end Sys2Proof.Machine
end

