-- ==== Sys2Proof/Machine/Rounds.lean ====
section
/-! DEFINITION. The rounds and the whole cipher as pure functions (44_cipher_sequencer.md R190 to R195). The schedule
RK(0..10) is given as the store that holds it. -/

namespace Sys2Proof.Machine

/-- A full forward round (R190). -/
def fullRound (s k : Block) : Block := addRoundKey (mixColumns (shiftRows (subBytes s))) k

/-- The final forward round, with no MixColumns (R191). -/
def finalRound (s k : Block) : Block := addRoundKey (shiftRows (subBytes s)) k

/-- A full inverse round: InvMixColumns comes after AddRoundKey (R192). -/
def invRound (s k : Block) : Block := invMixColumns (addRoundKey (invSubBytes (invShiftRows s)) k)

/-- The final inverse round (R193). -/
def invFinalRound (s k : Block) : Block := addRoundKey (invSubBytes (invShiftRows s)) k

/-- `Cipher(x)` under the schedule in `w`: round r uses RK(r) (R194). -/
def cipher (w : RoundKeyStore) (x : Block) : Block :=
  finalRound
    ((List.range' 1 9).foldl (fun s r => fullRound s (roundKey w r)) (addRoundKey x (roundKey w 0)))
    (roundKey w 10)

/-- `InvCipher(y)` under the schedule in `w`: r = 9 down to 1 (R195). -/
def invCipher (w : RoundKeyStore) (y : Block) : Block :=
  invFinalRound
    ((List.range' 1 9).reverse.foldl (fun s r => invRound s (roundKey w r)) (addRoundKey y (roundKey w 10)))
    (roundKey w 0)

end Sys2Proof.Machine
end

