-- ==== Sys2Proof/Machine/Cipher.lean ====
section
/-! DEFINITION. The cipher sequencer: ENCRYPT and DECRYPT at their accept edges, and the ENC and DEC steps
(44_cipher_sequencer.md R197 to R201). -/

namespace Sys2Proof.Machine

/-- ENCRYPT at its accept edge: `ST <- din ^ RK(0)`, PHASE <- ENC, RND <- 1, DONE <- 0; NO_KEY if KV = 0 (R198). -/
def execEncrypt (s : State) : Host.Outcome State Fault Refusal :=
  .next (s.requireKey ((s.writeSt (addRoundKey (blockOperand s) (roundKey s.w 0))).startSequence .enc 1#4))

/-- DECRYPT at its accept edge: `ST <- din ^ RK(10)`, PHASE <- DEC, RND <- 9, DONE <- 0; NO_KEY if KV = 0 (R200). -/
def execDecrypt (s : State) : Host.Outcome State Fault Refusal :=
  .next (s.requireKey ((s.writeSt (addRoundKey (blockOperand s) (roundKey s.w 10))).startSequence .dec 9#4))

/-- The ENC step with r = RND: a full round for r = 1 to 9, the final round at r = 10 (R199). It is called only with
r in 1 to 10. -/
def encStep (s : State) : State :=
  if s.rnd = 10#4 then (s.writeSt (finalRound s.st (roundKey s.w 10))).finishSequence
  else (s.writeSt (fullRound s.st (roundKey s.w s.rnd.toNat))).writeRnd (s.rnd + 1#4)

/-- The DEC step with r = RND: a full inverse round for r = 9 to 1, the final inverse round at r = 0 (R201). It is
called only with r in 0 to 9. -/
def decStep (s : State) : State :=
  if s.rnd = 0#4 then (s.writeSt (invFinalRound s.st (roundKey s.w 0))).finishSequence
  else (s.writeSt (invRound s.st (roundKey s.w s.rnd.toNat))).writeRnd (s.rnd - 1#4)

end Sys2Proof.Machine
end

