-- ==== Sys2Proof/Machine/Control.lean ====
section
/-! DEFINITION. The control and data-movement commands (45_control.md R220 to R222). -/

namespace Sys2Proof.Machine

/-- NOP: DONE <- 1 and nothing else (R220). -/
def execNop (s : State) : Host.Outcome State Fault Refusal :=
  .next s.complete

/-- LOAD_STATE: `ST <- din`, DONE <- 1 (R221). -/
def execLoadState (s : State) : Host.Outcome State Fault Refusal :=
  .next (s.writeSt (blockOperand s)).complete

/-- CLEAR_STATUS: ERR <- 0, ECODE <- 0, DONE <- 1 (R222). -/
def execClearStatus (s : State) : Host.Outcome State Fault Refusal :=
  .next s.clearError.complete

end Sys2Proof.Machine
end

