-- ==== Sys2Proof/Machine/KeySchedule.lean ====
section
/-! DEFINITION. The commands of the key schedule and the KEXP step (42_key_schedule.md R140 to R143). -/

namespace Sys2Proof.Machine

/-- LOAD_KEY at its accept edge: W[0..3] take the key, KV <- 0, PHASE <- KEXP, RND <- 1, DONE <- 0 (R140). Ten KEXP
steps follow, one an edge. -/
def execLoadKey (s : State) : Host.Outcome State Fault Refusal :=
  .next (((s.writeStore (writeKeyWords s.w (keyOperand s))).writeKv false).startSequence .kexp 1#4)

/-- READ_ROUND_KEY r: `AUX <- RK(r)`, DONE <- 1; BAD_ROUND_INDEX if r > 10, else NO_KEY if KV = 0 (R143). -/
def execReadRoundKey (idx : Nibble) (s : State) : Host.Outcome State Fault Refusal :=
  .next (s.requireIndexAndKey idx (s.writeAux (roundKey s.w (indexOperand idx))).complete)

/-- The KEXP step with j = RND: the four words of round key j; at j = 10 the sequence ends and KV <- 1 (R141). It is
called only with j in 1 to 10. -/
def kexpStep (s : State) : State :=
  let t := s.writeStore (expandRoundKey s.w s.rnd.toNat)
  if s.rnd = 10#4 then (t.writeKv true).finishSequence else t.writeRnd (s.rnd + 1#4)

end Sys2Proof.Machine
end

