-- ==== Sys2Proof/Machine/RoundTransforms.lean ====
section
/-! DEFINITION. The seven single-stage commands: each applies one transform to ST at its accept edge
(43_round_transforms.md R169 to R175). -/

namespace Sys2Proof.Machine

/-- SUB_BYTES: `ST <- SubBytes(ST)` (R169). -/
def execSubBytes (s : State) : Host.Outcome State Fault Refusal :=
  .next (s.writeSt (subBytes s.st)).complete

/-- INV_SUB_BYTES: `ST <- InvSubBytes(ST)` (R170). -/
def execInvSubBytes (s : State) : Host.Outcome State Fault Refusal :=
  .next (s.writeSt (invSubBytes s.st)).complete

/-- SHIFT_ROWS: `ST <- ShiftRows(ST)` (R171). -/
def execShiftRows (s : State) : Host.Outcome State Fault Refusal :=
  .next (s.writeSt (shiftRows s.st)).complete

/-- INV_SHIFT_ROWS: `ST <- InvShiftRows(ST)` (R172). -/
def execInvShiftRows (s : State) : Host.Outcome State Fault Refusal :=
  .next (s.writeSt (invShiftRows s.st)).complete

/-- MIX_COLUMNS: `ST <- MixColumns(ST)` (R173). -/
def execMixColumns (s : State) : Host.Outcome State Fault Refusal :=
  .next (s.writeSt (mixColumns s.st)).complete

/-- INV_MIX_COLUMNS: `ST <- InvMixColumns(ST)` (R174). -/
def execInvMixColumns (s : State) : Host.Outcome State Fault Refusal :=
  .next (s.writeSt (invMixColumns s.st)).complete

/-- ADD_ROUND_KEY r: `ST <- AddRoundKey(ST, RK(r))`; BAD_ROUND_INDEX if r > 10, else NO_KEY if KV = 0 (R175). -/
def execAddRoundKey (idx : Nibble) (s : State) : Host.Outcome State Fault Refusal :=
  .next (s.requireIndexAndKey idx (s.writeSt (addRoundKey s.st (roundKey s.w (indexOperand idx)))).complete)

end Sys2Proof.Machine
end

