-- ==== Sys2Proof/Machine/SboxGf.lean ====
section
/-! DEFINITION. The commands that expose the S-box tables and the multiplier (41_sbox_gf.md R110 to R112). -/

namespace Sys2Proof.Machine

/-- SBOX: `AUX <- zext_128(SBOX[din[7:0]])`, DONE <- 1 (R110). -/
def execSbox (s : State) : Host.Outcome State Fault Refusal :=
  .next (s.writeAux (zextByte (sbox (byteOperand s)))).complete

/-- INV_SBOX: `AUX <- zext_128(INV_SBOX[din[7:0]])`, DONE <- 1 (R111). -/
def execInvSbox (s : State) : Host.Outcome State Fault Refusal :=
  .next (s.writeAux (zextByte (invSbox (byteOperand s)))).complete

/-- GF_MUL: `AUX <- zext_128(gfmul(din[15:8], din[7:0]))`, DONE <- 1 (R112). -/
def execGfMul (s : State) : Host.Outcome State Fault Refusal :=
  .next (s.writeAux (zextByte (gfmul (upperByteOperand s) (byteOperand s)))).complete

end Sys2Proof.Machine
end

