-- ==== Sys2Proof/Machine/Edge.lean ====
section
/-! DEFINITION. One rising edge of `clk`: the cases of the step function in the spec's order, the accept of a command,
and how a command word comes to stand on the ports (10_state.md R40 to R43; 70_reset_and_hazards.md R270). -/

namespace Sys2Proof.Machine

/-- `accept(cmd, din, key_in)`: decodes `cmd`; an illegal word records ILLEGAL_COMMAND and nothing else changes, any
other word performs its command, which records BAD_ROUND_INDEX and NO_KEY itself (R43, R84, R243). -/
def accept (s : State) : Host.Outcome State Fault Refusal :=
  match decode s.ports.cmd with
  | .illegal => .next (s.recordError .illegalCommand)
  | .badIndex i => exec i s
  | .ok i => exec i s

/-- An edge with `rst` = 0, its cases in R40's order. A (PHASE, RND) pair outside R35 faults first (D30, U4;
notes/assumptions/3.md). -/
def runningEdge (s : State) : Host.Outcome State Fault Refusal :=
  if sequencerLegal s.phase s.rnd then
    match s.phase with
    | .kexp => .next (kexpStep s)
    | .enc => .next (encStep s)
    | .dec => .next (decStep s)
    | .idle => if s.ports.cmdValid then accept s else .next s
  else .fault .sequencerOutsideInvariant

/-- One edge: reset has priority over every step and every command (R40, R270). -/
def edge (s : State) : Host.Outcome State Fault Refusal :=
  if s.ports.rst then .next s.resetEdge else runningEdge s

/-- One edge, after which the host's next levels stand on the ports. -/
def clockEdge (s : State) : Host.Outcome State Fault Refusal :=
  match edge s with
  | .next t => .next t.advance
  | .fault r => .fault r
  | .refused r => .refused r

/-- `s` with the command `c` offered at the coming edge: `rst` = 0, `cmd_valid` = 1 and `cmd` = c; the operand ports and
the later edges stay. The accept also needs an idle sequencer, which it already is in a state after reset. -/
def offer (s : State) (c : Cmd) : State :=
  { s with phase := .idle, rnd := 0#4,
           drive := { s.ports with rst := false, cmdValid := true, cmd := c } :: s.drive.tail }

end Sys2Proof.Machine
end

