-- ==== Sys2Proof/Machine/Step.lean ====
section
/-! DEFINITION. The step of the machine is one rising edge of `clk` (10_state.md R40). -/

namespace Sys2Proof.Machine

/-- One rising edge (R40; notes/assumptions/8.md and 9.md say how exec and the host's levels enter it). -/
def step (s : State) : Host.Outcome State Fault Refusal := clockEdge s

/-- `s` with a table row's word offered on `cmd` at the coming edge, so that the next step accepts it
(notes/assumptions/7.md). -/
def State.withFetchWord (s : State) (nbits w : Nat) : State := offer s (tableWord nbits w)

end Sys2Proof.Machine
end

