-- ==== Sys2Proof/Safety.lean ====
section
/-! DEFINITION. The words the statements are made of: runs of edges, the accept of a command, the error a command word
causes, how long a command is busy, and the invariant of the states that a reset leads to. -/

namespace Sys2Proof.Machine

/-- `n` edges, stopping at the first fault or refusal. -/
def runEdges : Nat → State → Host.Outcome State Fault Refusal
  | 0, s => .next s
  | n + 1, s =>
    match step s with
    | .next t => runEdges n t
    | .fault r => .fault r
    | .refused r => .refused r

/-- None of the coming `n` edges has `rst` = 1. -/
def NoReset (n : Nat) (s : State) : Prop :=
  ∀ p ∈ s.drive.take n, p.rst = false

/-- The command word `c` is accepted at the coming edge: `cmd_valid` = 1 and `cmd_ready` = 1 (R41), in a state whose
(PHASE, RND) keeps R35. -/
def Accepts (s : State) (c : Cmd) : Prop :=
  sequencerLegal s.phase s.rnd = true ∧ s.cmdReady = true ∧ s.ports.cmdValid = true ∧ s.ports.cmd = c

/-- The error that the word `c` raises when accepted with the given KV, read off the bits of the word in the order of
R243: ILLEGAL_COMMAND, BAD_ROUND_INDEX, NO_KEY (R242). -/
def errorCause (c : Cmd) (kv : Bool) : Option ErrorCode :=
  let op := c.extractLsb' 0 8
  let idx := c.extractLsb' 8 4
  let rsv := c.extractLsb' 12 4
  let indexed := op = 0x0B#8 ∨ op = 0x0C#8
  if rsv ≠ 0#4 ∨ 0x10#8 < op ∨ (¬ indexed ∧ idx ≠ 0#4) then some .illegalCommand
  else if indexed ∧ 10#4 < idx then some .badRoundIndex
  else if (op = 0x02#8 ∨ op = 0x03#8 ∨ indexed) ∧ kv = false then some .noKey
  else none

/-- The busy edges that follow the accept edge of the word `c` (R290): 10 for LOAD_KEY, ENCRYPT and DECRYPT when they
raise no error, 0 for every other command and for any command raising an error. -/
def busyEdgesOf (c : Cmd) (kv : Bool) : Nat :=
  if errorCause c kv = none ∧ (c = 0x0001#16 ∨ c = 0x0002#16 ∨ c = 0x0003#16) then Config.busyEdges else 0

/-- The coming edge and exactly `k` busy edges after it: PHASE is not IDLE after edges E0 to E(k-1) and is IDLE after
edge Ek. -/
def BusyExactly (k : Nat) (s : State) : Prop :=
  ∀ n, n ≤ k → ∃ t, runEdges (n + 1) s = .next t ∧ (t.phase = .idle ↔ n = k)

/-- The word `c` stands for the command `i`, and no other word with the same OP is legal (R80, R84, R85). -/
def OnlyWordOf (i : Instr) (c : Cmd) : Prop :=
  encode i = c ∧ decode c = .ok i ∧
    ∀ c', opField c' = opField c → c' ≠ c → decode c' = .illegal

/-- The words `0x0 ‖ idx ‖ op` stand for the indexed command `mk idx`: legal for idx at most 10, BAD_INDEX above, and
every other word with this OP is illegal (R80, R84, R85). -/
def IndexedWordsOf (mk : Nibble → Instr) (op : Byte) : Prop :=
  (∀ idx, encode (mk idx) = 0#4 ++ idx ++ op) ∧
  (∀ idx : Nibble, idx.toNat ≤ 10 → decode (0#4 ++ idx ++ op) = .ok (mk idx)) ∧
  (∀ idx : Nibble, 10 < idx.toNat → decode (0#4 ++ idx ++ op) = .badIndex (mk idx)) ∧
  (∀ c, opField c = op → rsvField c ≠ 0#4 → decode c = .illegal)

/-- The words of the store below index `n` are those of the expansion of the key in its first four words (R134). -/
def ScheduleUpTo (w : RoundKeyStore) (n : Nat) : Prop :=
  ∀ i, i < n → readWord w i = readWord (keyExpansion (roundKey w 0)) i

/-- The invariant of the states that a reset leads to. -/
structure Inv (s : State) : Prop where
  /-- The (PHASE, RND) pairs of R35. -/
  sequencer : sequencerLegal s.phase s.rnd = true
  /-- While a key expands, KV = 0 and the words below W[4 RND] are those of its schedule (R27, R141). -/
  expanding : s.phase = .kexp → s.kv = false ∧ ScheduleUpTo s.w (4 * s.rnd.toNat)
  /-- A cipher command runs only with a valid key (R62). -/
  ciphering : s.phase = .enc ∨ s.phase = .dec → s.kv = true
  /-- DONE is 0 while a multi-cycle command is in progress (R28). -/
  running : s.phase ≠ .idle → s.done = false
  /-- ERR is set exactly when an error code is recorded (R241, R244). -/
  errorCode : s.err = true ↔ s.ecode ≠ .noError
  /-- KV = 1 means that W holds the complete schedule of its key (R27). -/
  schedule : s.kv = true → s.w = keyExpansion (roundKey s.w 0)

/-- The commands one after another, each taken at its accept edge with the state as it then stands; the state after
them, or the first stop. It is used for sequences of single-cycle commands that read no port. -/
def execAll : List Instr → State → Host.Outcome State Fault Refusal
  | [], s => .next s
  | i :: rest, s =>
    match exec i s with
    | .next t => execAll rest t
    | .fault r => .fault r
    | .refused r => .refused r

/-- `ROUND r` of R89: `SB; SR; MC; ARK r`. -/
def roundCommands (r : Nibble) : List Instr := [.subBytes, .shiftRows, .mixColumns, .addRoundKey r]

/-- `FINAL_ROUND` of R89: `SB; SR; ARK 10`. -/
def finalRoundCommands : List Instr := [.subBytes, .shiftRows, .addRoundKey 10#4]

/-- `INV_ROUND r` of R89: `ISR; ISB; ARK r; IMC`. -/
def invRoundCommands (r : Nibble) : List Instr := [.invShiftRows, .invSubBytes, .addRoundKey r, .invMixColumns]

/-- `INV_FINAL_ROUND` of R89: `ISR; ISB; ARK 0`. -/
def invFinalRoundCommands : List Instr := [.invShiftRows, .invSubBytes, .addRoundKey 0#4]

/-- `ENCRYPT_STEPWISE` of R89, the block taken by LOAD_STATE from `din`. -/
def encryptStepwise : List Instr :=
  [.loadState, .addRoundKey 0#4] ++
    roundCommands 1#4 ++ roundCommands 2#4 ++ roundCommands 3#4 ++ roundCommands 4#4 ++ roundCommands 5#4 ++
    roundCommands 6#4 ++ roundCommands 7#4 ++ roundCommands 8#4 ++ roundCommands 9#4 ++ finalRoundCommands

/-- `DECRYPT_STEPWISE` of R89, the block taken by LOAD_STATE from `din`. -/
def decryptStepwise : List Instr :=
  [.loadState, .addRoundKey 10#4] ++
    invRoundCommands 9#4 ++ invRoundCommands 8#4 ++ invRoundCommands 7#4 ++ invRoundCommands 6#4 ++
    invRoundCommands 5#4 ++ invRoundCommands 4#4 ++ invRoundCommands 3#4 ++ invRoundCommands 2#4 ++
    invRoundCommands 1#4 ++ invFinalRoundCommands

/-- Byte-wise carry-less product of two bytes, not reduced: the XOR of `a · x^i` over the set bits i of `b` (R100). -/
def carrylessProduct (a b : Byte) : BitVec 16 :=
  (List.range 8).foldl (fun p i => if b.getLsbD i then p ^^^ (a.setWidth 16 <<< i) else p) 0#16

/-- The remainder modulo the polynomial 0x11B: for i = 7 down to 0, the multiple `0x11B · x^i` is taken off when bit
8 + i is set (R100). -/
def reduceBy11B (p : BitVec 16) : Byte :=
  ((List.range 8).reverse.foldl (fun p i => if p.getLsbD (8 + i) then p ^^^ (0x11B#16 <<< i) else p) p).setWidth 8

end Sys2Proof.Machine
end

