-- ==== Sys2Proof/Certificates/Slice0/Obligations.lean ====
section
/-! DEFINITION. What is claimed about the core, one definition a statement, each citing the rule of the spec it comes
from. A result statement of a command gives the whole next state as an equation, so its frame is part of it: a field
that the equation does not name keeps its value. -/

open Sys2Proof Sys2Proof.Machine

/-! ### Encoding and decoding -/

/-- R84. The decoder's result for every command word, by the fields of the word in the order the rule tests them; and
an accepted ILLEGAL or BAD_INDEX word raises ILLEGAL_COMMAND or BAD_ROUND_INDEX. -/
def Obligations.DecoderResultForEveryWord : Prop :=
  (∀ c : Cmd,
    (rsvField c ≠ 0#4 → decode c = .illegal) ∧
    (rsvField c = 0#4 → 0x10#8 < opField c → decode c = .illegal) ∧
    (rsvField c = 0#4 → (opField c = 0x0B#8 ∨ opField c = 0x0C#8) →
      ∃ i : Instr, i.opcode = opField c ∧ i.index = idxField c ∧
        (10#4 < idxField c → decode c = .badIndex i) ∧ (idxField c ≤ 10#4 → decode c = .ok i)) ∧
    (rsvField c = 0#4 → opField c ≤ 0x10#8 → opField c ≠ 0x0B#8 → opField c ≠ 0x0C#8 →
      (idxField c ≠ 0#4 → decode c = .illegal) ∧
      (idxField c = 0#4 → ∃ i : Instr, i.opcode = opField c ∧ i.index = 0#4 ∧ decode c = .ok i))) ∧
  (∀ s c, Accepts s c →
    (decode c = .illegal →
      ∃ t, step s = .next t ∧ t.err = true ∧ t.ecode = if s.err then s.ecode else .illegalCommand) ∧
    (∀ i, decode c = .badIndex i →
      ∃ t, step s = .next t ∧ t.err = true ∧ t.ecode = if s.err then s.ecode else .badRoundIndex))

/-- 30_encoding.md section 2. The decoder and the encoder agree on every command and on every word: each command has
exactly one word that decodes to it, as legal or with its index out of range, and nothing else decodes to a
command. -/
def Obligations.DecodeInvertsEncode : Prop :=
  (∀ i : Instr, i.wf = true → decode (encode i) = .ok i) ∧
  (∀ i : Instr, i.wf = false → decode (encode i) = .badIndex i) ∧
  (∀ (c : Cmd) (i : Instr), decode c = .ok i → i.wf = true ∧ encode i = c) ∧
  (∀ (c : Cmd) (i : Instr), decode c = .badIndex i → i.wf = false ∧ encode i = c)

/-- 30_encoding.md section 3, R85 (which the spec derives). The 37 legal words are exactly these: 15 without an index,
and 11 indices of each of the two indexed commands. The 10 words with a bad index are exactly those of IDX 11 to 15.
Every one of the other 65489 words is illegal. -/
def Obligations.LegalAndBadIndexWordsListed : Prop :=
  let plain : List Cmd := [0x0000, 0x0001, 0x0002, 0x0003, 0x0004, 0x0005, 0x0006, 0x0007, 0x0008, 0x0009, 0x000A,
    0x000D, 0x000E, 0x000F, 0x0010]
  let addKey : List Cmd := [0x000B, 0x010B, 0x020B, 0x030B, 0x040B, 0x050B, 0x060B, 0x070B, 0x080B, 0x090B, 0x0A0B]
  let readKey : List Cmd := [0x000C, 0x010C, 0x020C, 0x030C, 0x040C, 0x050C, 0x060C, 0x070C, 0x080C, 0x090C, 0x0A0C]
  let bad : List Cmd := [0x0B0B, 0x0C0B, 0x0D0B, 0x0E0B, 0x0F0B, 0x0B0C, 0x0C0C, 0x0D0C, 0x0E0C, 0x0F0C]
  ∀ c : Cmd,
    ((∃ i, decode c = .ok i) ↔ c ∈ plain ++ addKey ++ readKey) ∧
    ((∃ i, decode c = .badIndex i) ↔ c ∈ bad) ∧
    (decode c = .illegal ↔ c ∉ plain ++ addKey ++ readKey ++ bad)

/-- 30_encoding.md section 2, the words it writes out: ENCRYPT is 0x0002, ADD_ROUND_KEY 10 is 0x0A0B, and one word
more of each family, each decoding to its command. -/
def Obligations.WrittenOutWordsDecode : Prop :=
  decode 0x0002#16 = .ok .encrypt ∧ decode 0x0A0B#16 = .ok (.addRoundKey 10#4) ∧
  decode 0x010C#16 = .ok (.readRoundKey 1#4) ∧ decode 0x0001#16 = .ok .loadKey ∧
  decode 0x0009#16 = .ok .mixColumns ∧ decode 0x000F#16 = .ok .gfMul ∧ decode 0x0010#16 = .ok .clearStatus ∧
  decode 0x0000#16 = .ok .nop ∧ decode 0x0110#16 = .illegal ∧ decode 0x0011#16 = .illegal ∧
  decode 0x0C0B#16 = .badIndex (.addRoundKey 12#4)

/-! ### Outputs -/

/-- R23, R30. Every field of the STATUS word at its bits, bits [15:12] always 0; and the word is a function of the
registers only, so the host has no other influence on it than commands and `rst`. -/
def Obligations.StatusWordFields : Prop :=
  (∀ s : State,
    s.status.extractLsb' 0 1 = (if s.phase = .idle then 0#1 else 1#1) ∧
    s.status.extractLsb' 1 1 = (if s.kv then 1#1 else 0#1) ∧
    s.status.extractLsb' 2 1 = (if s.done then 1#1 else 0#1) ∧
    s.status.extractLsb' 3 1 = (if s.err then 1#1 else 0#1) ∧
    s.status.extractLsb' 4 2 =
      (match s.ecode with
        | .noError => 0#2
        | .illegalCommand => 1#2
        | .badRoundIndex => 2#2
        | .noKey => 3#2) ∧
    s.status.extractLsb' 6 2 =
      (match s.phase with
        | .idle => 0#2
        | .kexp => 1#2
        | .enc => 2#2
        | .dec => 3#2) ∧
    s.status.extractLsb' 8 4 = s.rnd ∧
    s.status.extractLsb' 12 4 = 0#4) ∧
  (∀ (s : State) (d : List Ports), ({ s with drive := d } : State).status = s.status)

/-- R21, R22. `cmd_ready` is PHASE = IDLE and `rst` = 0, and reads no other input; `state_out` is ST and `aux_out` is
AUX at all times. -/
def Obligations.ReadyAndDataOutputs : Prop :=
  (∀ s : State, s.cmdReady = true ↔ s.phase = .idle ∧ s.ports.rst = false) ∧
  (∀ (s : State) (p q : Ports) (rest : List Ports), p.rst = q.rst →
    ({ s with drive := p :: rest } : State).cmdReady = ({ s with drive := q :: rest } : State).cmdReady) ∧
  (∀ s : State, s.stateOut = s.st ∧ s.auxOut = s.aux)

/-! ### The step -/

/-- R40. The cases of the step, in their order; the host's next levels then stand on the ports. -/
def Obligations.StepTakesTheFirstCaseThatApplies : Prop :=
  ∀ s : State,
    (s.ports.rst = true → step s = .next s.resetEdge.advance) ∧
    (s.ports.rst = false → sequencerLegal s.phase s.rnd = true →
      (s.phase = .kexp → step s = .next (kexpStep s).advance) ∧
      (s.phase = .enc → step s = .next (encStep s).advance) ∧
      (s.phase = .dec → step s = .next (decStep s).advance) ∧
      (s.phase = .idle → s.ports.cmdValid = true →
        ∃ t, accept s = .next t ∧ step s = .next t.advance) ∧
      (s.phase = .idle → s.ports.cmdValid = false → step s = .next s.advance))

/-- 10_state.md section 3. A step runs the decoded command: at an edge that accepts a word which decodes to a command
(also one whose index is out of range), the step is exec of that command, after which the host's next levels stand on
the ports; exec itself leaves the drive alone. -/
def Obligations.StepRunsTheDecodedCommand : Prop :=
  ∀ (s : State) (c : Cmd) (i : Instr), Accepts s c → (decode c = .ok i ∨ decode c = .badIndex i) →
    ∃ t, exec i s = .next t ∧ t.drive = s.drive ∧ step s = .next { t with drive := s.drive.tail }

/-- R42. At an edge with `rst` = 0, PHASE = IDLE and `cmd_valid` = 0 no register changes (RND is 0 when PHASE is
IDLE). -/
def Obligations.IdleEdgeKeepsEveryRegister : Prop :=
  ∀ s : State, s.ports.rst = false → s.phase = .idle → s.rnd = 0#4 → s.ports.cmdValid = false →
    step s = .next { s with drive := s.drive.tail }

/-- R37. The ports `cmd`, `din` and `key_in` are read only at an accept edge: at a reset edge and at a busy edge no
other port is read, so an offered command has no effect there; at an idle edge `cmd_valid` is read, and the others
only when it is 1, which accepts the word. -/
def Obligations.PortsAreReadOnlyAtAnAcceptEdge : Prop :=
  (∀ (s : State) (p q : Ports) (rest : List Ports), p.rst = q.rst → p.rst = true ∨ s.phase ≠ .idle →
    step { s with drive := p :: rest } = step { s with drive := q :: rest }) ∧
  (∀ (s : State) (p : Ports) (rest : List Ports), p.rst = false → s.phase = .idle → s.rnd = 0#4 →
    (p.cmdValid = false → step { s with drive := p :: rest } = .next { s with drive := rest }) ∧
    (p.cmdValid = true →
      ∃ t, accept { s with drive := p :: rest } = .next t ∧
        step { s with drive := p :: rest } = .next { t with drive := rest }))

/-- R270, R271. A reset edge, whatever the state and the other inputs: every register takes its reset value, W is
unchanged, the offered command is not accepted, and once `rst` is 0 the outputs are those of the reset state. -/
def Obligations.ResetEdgeValues : Prop :=
  ∀ s : State, s.ports.rst = true →
    s.cmdReady = false ∧
    ∃ t, step s = .next t ∧
      t = { st := 0#128, aux := 0#128, w := s.w, kv := false, done := false, err := false, ecode := .noError,
            phase := .idle, rnd := 0#4, drive := s.drive.tail } ∧
      (t.ports.rst = false →
        t.status = 0x0000#16 ∧ t.stateOut = 0#128 ∧ t.auxOut = 0#128 ∧ t.cmdReady = true)

/-- 70_reset_and_hazards.md section 2. A command held through a reset edge is lost there and accepted at the first
edge with `rst` = 0 (the spec derives this, R283). -/
def Obligations.CommandHeldThroughResetIsAcceptedAfterIt : Prop :=
  ∀ (s : State) (p q : Ports) (rest : List Ports), s.drive = p :: q :: rest → p.rst = true → q.rst = false →
    q.cmdValid = true →
    ∃ t, step s = .next t ∧ Accepts t q.cmd ∧ t.drive = q :: rest ∧ t.st = 0#128 ∧ t.kv = false

/-- 10_state.md section 2 and U4. A step faults exactly at an edge with `rst` = 0 in a state whose (PHASE, RND) breaks
the invariant of R35, which the spec says a model should do (D30), and answers a next state everywhere else. -/
def Obligations.OnlyStatesOutsideTheInvariantFault : Prop :=
  ∀ s : State,
    (s.ports.rst = false ∧ sequencerLegal s.phase s.rnd = false → step s = .fault .sequencerOutsideInvariant) ∧
    (s.ports.rst = true ∨ sequencerLegal s.phase s.rnd = true → ∃ t, step s = .next t)

/-- 10_state.md section 2. The invariant holds at the reset state, and every reset edge establishes its sequencer,
error and key clauses from any state at all, also one of power-up (R273, R275). -/
def Obligations.InvariantHoldsAfterReset : Prop :=
  Inv State.reset ∧ ∀ s : State, s.ports.rst = true → ∃ t, step s = .next t ∧ Inv t

/-- 10_state.md section 2. Every step from a state with the invariant answers a next state, and the invariant holds
there: the (PHASE, RND) pairs of R35, KV = 1 only over a complete schedule, KV = 0 and a correct prefix while a key
expands, DONE = 0 while busy, and ERR exactly when a code is recorded (the spec derives R35). -/
def Obligations.EveryStepKeepsTheInvariant : Prop :=
  ∀ s : State, Inv s → ∃ t, step s = .next t ∧ Inv t

/-! ### Who writes which register -/

/-- R24. ST changes only at the accept of LOAD_STATE, ENCRYPT, DECRYPT or one of the seven single-stage transforms, at
an ENC or DEC step, or at reset, which writes 0. -/
def Obligations.WritersOfTheStateRegister : Prop :=
  ∀ s t : State, step s = .next t →
    (s.ports.rst = true → t.st = 0#128) ∧
    (t.st ≠ s.st →
      s.ports.rst = true ∨ s.phase = .enc ∨ s.phase = .dec ∨
      ∃ i : Instr, Accepts s (encode i) ∧
        (i ∈ [Instr.loadState, .encrypt, .decrypt, .subBytes, .invSubBytes, .shiftRows, .invShiftRows, .mixColumns,
          .invMixColumns] ∨ ∃ r, i = .addRoundKey r))

/-- R25. AUX changes only at the accept of READ_ROUND_KEY, SBOX, INV_SBOX or GF_MUL, or at reset, which writes 0; the
byte results are zero-extended. -/
def Obligations.WritersOfTheResultRegister : Prop :=
  ∀ s t : State, step s = .next t →
    (s.ports.rst = true → t.aux = 0#128) ∧
    (t.aux ≠ s.aux →
      s.ports.rst = true ∨
      ∃ i : Instr, Accepts s (encode i) ∧
        (i ∈ [Instr.sbox, .invSbox, .gfMul] ∨ ∃ r, i = .readRoundKey r)) ∧
    (∀ i ∈ [Instr.sbox, .invSbox, .gfMul], Accepts s (encode i) → t.aux.extractLsb' 8 120 = 0#120)

/-- R26. LOAD_KEY writes W[0..3] at its accept edge, the KEXP steps write W[4..43], and nothing else writes W, reset
included. The commands that the rule does not name as readers of W do not read it: with other words in W they do the
same to every other register. -/
def Obligations.WritersOfTheRoundKeyStore : Prop :=
  (∀ s t : State, step s = .next t → ∀ i, readWord t.w i ≠ readWord s.w i →
    s.ports.rst = false ∧ ((Accepts s 0x0001#16 ∧ i < 4) ∨ (s.phase = .kexp ∧ 4 ≤ i ∧ i < 44))) ∧
  (∀ (i : Instr) (s : State) (v : RoundKeyStore),
    i ∈ [Instr.nop, .loadState, .subBytes, .invSubBytes, .shiftRows, .invShiftRows, .mixColumns, .invMixColumns,
      .sbox, .invSbox, .gfMul, .clearStatus] →
    ∃ t, exec i s = .next t ∧ exec i { s with w := v } = .next { t with w := v })

/-- R27. KV = 1 means that W holds the complete schedule of the last key accepted: LOAD_KEY puts its key in W[0..3]
and clears KV, the final KEXP step sets KV, reset clears it, no other step changes it, and whenever KV = 1 after a
step W is the expansion of the key in its first four words. -/
def Obligations.KeyValidFlagFollowsTheSchedule : Prop :=
  ∀ s t : State, Inv s → step s = .next t →
    (t.kv = true → t.w = keyExpansion (roundKey t.w 0)) ∧
    (Accepts s 0x0001#16 → t.kv = false ∧ roundKey t.w 0 = s.ports.keyIn) ∧
    (roundKey t.w 0 ≠ roundKey s.w 0 → Accepts s 0x0001#16) ∧
    (s.ports.rst = false → s.phase = .kexp → s.rnd = 10#4 → t.kv = true) ∧
    (s.ports.rst = true → t.kv = false) ∧
    (t.kv ≠ s.kv →
      Accepts s 0x0001#16 ∨ s.ports.rst = true ∨ (s.ports.rst = false ∧ s.phase = .kexp ∧ s.rnd = 10#4))

/-- R28. DONE: 1 at the accept of a single-cycle command, also an erroring one, and at the final step of a multi-cycle
command; 0 at the accept of a multi-cycle command and at reset; unchanged at any other edge. -/
def Obligations.DoneFlagAtEveryEdge : Prop :=
  ∀ s t : State, step s = .next t →
    (∀ c, Accepts s c → busyEdgesOf c s.kv = 0 → t.done = true) ∧
    (∀ c, Accepts s c → busyEdgesOf c s.kv ≠ 0 → t.done = false) ∧
    (s.ports.rst = true → t.done = false) ∧
    (s.ports.rst = false →
      (s.phase = .kexp ∧ s.rnd = 10#4 ∨ s.phase = .enc ∧ s.rnd = 10#4 ∨ s.phase = .dec ∧ s.rnd = 0#4 →
        t.done = true) ∧
      (s.phase = .kexp ∧ s.rnd ≠ 10#4 ∨ s.phase = .enc ∧ s.rnd ≠ 10#4 ∨ s.phase = .dec ∧ s.rnd ≠ 0#4 ∨
        s.phase = .idle ∧ s.ports.cmdValid = false → t.done = s.done))

/-- R29. ERR and ECODE change in three ways only: an error is recorded (ERR <- 1, ECODE written only when ERR was 0),
an accepted CLEAR_STATUS writes both to 0, and reset writes both to 0. -/
def Obligations.ErrorFlagsChangeInThreeWays : Prop :=
  ∀ s t : State, step s = .next t →
    (∀ c e, Accepts s c → errorCause c s.kv = some e →
      t.err = true ∧ t.ecode = if s.err then s.ecode else e) ∧
    (Accepts s 0x0010#16 → t.err = false ∧ t.ecode = .noError) ∧
    (s.ports.rst = true → t.err = false ∧ t.ecode = .noError) ∧
    (t.err ≠ s.err ∨ t.ecode ≠ s.ecode →
      s.ports.rst = true ∨ Accepts s 0x0010#16 ∨ ∃ c e, Accepts s c ∧ errorCause c s.kv = some e)

/-- R31. PHASE is encoded as 0 IDLE, 1 KEXP, 2 ENC, 3 DEC; LOAD_KEY, ENCRYPT and DECRYPT move it from IDLE at their
accept edges, the final steps of those commands return it to IDLE, so does reset, and nothing else changes it. -/
def Obligations.PhaseMovesOnlyAtAcceptFinalStepAndReset : Prop :=
  Phase.idle.bits = 0#2 ∧ Phase.kexp.bits = 1#2 ∧ Phase.enc.bits = 2#2 ∧ Phase.dec.bits = 3#2 ∧
  ∀ s t : State, step s = .next t →
    (Accepts s 0x0001#16 → t.phase = .kexp) ∧
    (Accepts s 0x0002#16 → s.kv = true → t.phase = .enc) ∧
    (Accepts s 0x0003#16 → s.kv = true → t.phase = .dec) ∧
    (s.ports.rst = true → t.phase = .idle) ∧
    (s.ports.rst = false →
      s.phase = .kexp ∧ s.rnd = 10#4 ∨ s.phase = .enc ∧ s.rnd = 10#4 ∨ s.phase = .dec ∧ s.rnd = 0#4 →
      t.phase = .idle) ∧
    (t.phase ≠ s.phase →
      s.ports.rst = true ∨ Accepts s 0x0001#16 ∨ (Accepts s 0x0002#16 ∧ s.kv = true) ∨
      (Accepts s 0x0003#16 ∧ s.kv = true) ∨
      s.phase = .kexp ∧ s.rnd = 10#4 ∨ s.phase = .enc ∧ s.rnd = 10#4 ∨ s.phase = .dec ∧ s.rnd = 0#4)

/-! ### Errors -/

/-- R43, R243, R244, R245. An accepted word is checked for errors by priority. If one applies, exactly that one is
recorded and nothing else changes; otherwise the command it decodes to is performed and no error is raised. The three
examples of R243 are stated too. -/
def Obligations.AcceptedWordRecordsItsFirstError : Prop :=
  (∀ (s : State) (c : Cmd), Accepts s c →
    (∀ e, errorCause c s.kv = some e →
      step s = .next { s with ecode := if s.err then s.ecode else e, err := true, done := true,
                              drive := s.drive.tail }) ∧
    (errorCause c s.kv = none →
      ∃ i t, decode c = .ok i ∧ exec i s = .next t ∧ step s = .next { t with drive := s.drive.tail } ∧
        (t.err = s.err ∧ t.ecode = s.ecode ∨ i = .clearStatus))) ∧
  errorCause 0x1C0B#16 false = some .illegalCommand ∧ errorCause 0x0C0B#16 false = some .badRoundIndex ∧
  errorCause 0x0A0B#16 false = some .noKey

/-- R247. ERR falls only by a CLEAR_STATUS command or a reset, and no error disables the core: whatever ERR, ECODE and
DONE are, a command does the same to every other register. -/
def Obligations.ErrorsNeitherClearThemselvesNorDisable : Prop :=
  (∀ s t : State, step s = .next t → s.err = true → t.err = false →
    s.ports.rst = true ∨ Accepts s 0x0010#16) ∧
  (∀ (i : Instr) (s : State) (d e : Bool) (c : ErrorCode),
    ∃ t t', exec i s = .next t ∧ exec i { s with done := d, err := e, ecode := c } = .next t' ∧
      t' = { t with err := t'.err, ecode := t'.ecode })

/-! ### S-box tables and multiplier -/

/-- 41_sbox_gf.md section 2, R105 (which the spec marks as general knowledge): every entry of the S-box table is the
affine image of the field inverse, with 0 for 0. -/
def Obligations.SboxIsInversionThenAffine : Prop :=
  ∀ x : Byte, ∃ b : Byte, (if x = 0#8 then b = 0#8 else gfmul x b = 0x01#8) ∧
    sbox x = b ^^^ b.rotateLeft 1 ^^^ b.rotateLeft 2 ^^^ b.rotateLeft 3 ^^^ b.rotateLeft 4 ^^^ 0x63#8

/-- 41_sbox_gf.md section 2, R108 (which the spec derives): the tables are inverse permutations, with no fixed point
and no complemented fixed point. -/
def Obligations.SboxTablesAreInversePermutations : Prop :=
  (∀ x : Byte, invSbox (sbox x) = x) ∧ (∀ y : Byte, sbox (invSbox y) = y) ∧
  (∀ x : Byte, sbox x ≠ x) ∧ (∀ x : Byte, sbox x ≠ x ^^^ 0xFF#8)

/-- 41_sbox_gf.md section 1. The loop of R103 computes the carry-less product reduced modulo 0x11B (R100). -/
def Obligations.GfmulIsTheProductModulo11B : Prop :=
  ∀ a b : Byte, gfmul a b = reduceBy11B (carrylessProduct a b)

/-- 41_sbox_gf.md section 1, R104 (which the spec derives, in part from general knowledge): the field laws, its
examples, and xtime as multiplication by 0x02 with its corner cases (R102). -/
def Obligations.GfmulFieldLaws : Prop :=
  (∀ a : Byte, gfmul a 0#8 = 0#8 ∧ gfmul 0#8 a = 0#8 ∧ gfmul a 1#8 = a) ∧
  (∀ a b : Byte, gfmul a b = gfmul b a) ∧
  (∀ a b c : Byte, gfmul a (b ^^^ c) = gfmul a b ^^^ gfmul a c) ∧
  (∀ a b c : Byte, gfmul (gfmul a b) c = gfmul a (gfmul b c)) ∧
  (∀ a : Byte, a ≠ 0#8 → ∃ b, gfmul a b = 1#8 ∧ ∀ b', gfmul a b' = 1#8 → b' = b) ∧
  (∀ a : Byte, gfmul a 0x02#8 = xtime a) ∧
  gfmul 0x57#8 0x83#8 = 0xC1#8 ∧ gfmul 0x57#8 0x13#8 = 0xFE#8 ∧ gfmul 0xFF#8 0xFF#8 = 0x13#8 ∧
  gfmul 0x53#8 0xCA#8 = 0x01#8 ∧
  xtime 0x00#8 = 0x00#8 ∧ xtime 0x80#8 = 0x1B#8 ∧ xtime 0xFF#8 = 0xE5#8 ∧ xtime 0x57#8 = 0xAE#8

/-- R110. SBOX: AUX takes the table's entry for din[7:0], zero-extended; it completes in every state, whatever KV
is. -/
def Obligations.SboxCommand : Prop :=
  (∀ s : State, exec .sbox s =
    .next { s with aux := 0#120 ++ sbox (s.ports.din.extractLsb' 0 8), done := true }) ∧
  OnlyWordOf .sbox 0x000D#16 ∧ sbox 0x00#8 = 0x63#8 ∧ sbox 0xFF#8 = 0x16#8 ∧ sbox 0x53#8 = 0xED#8

/-- R111. INV_SBOX: AUX takes the inverse table's entry for din[7:0], zero-extended; it undoes SBOX. -/
def Obligations.InvSboxCommand : Prop :=
  (∀ s : State, exec .invSbox s =
    .next { s with aux := 0#120 ++ invSbox (s.ports.din.extractLsb' 0 8), done := true }) ∧
  OnlyWordOf .invSbox 0x000E#16 ∧ invSbox 0x63#8 = 0x00#8 ∧ invSbox 0x00#8 = 0x52#8 ∧
  (∀ x : Byte, invSbox (sbox x) = x) ∧ invSbox 0xED#8 = 0x53#8

/-- R112. GF_MUL: AUX takes the product of din[15:8] and din[7:0], zero-extended. -/
def Obligations.GfMulCommand : Prop :=
  (∀ s : State, exec .gfMul s =
    .next { s with aux := 0#120 ++ gfmul (s.ports.din.extractLsb' 8 8) (s.ports.din.extractLsb' 0 8),
                   done := true }) ∧
  OnlyWordOf .gfMul 0x000F#16 ∧
  (∀ a : Byte, gfmul a 0#8 = 0#8 ∧ gfmul 0#8 a = 0#8 ∧ gfmul a 1#8 = a ∧ gfmul 1#8 a = a) ∧
  gfmul 0x80#8 0x02#8 = 0x1B#8 ∧ gfmul 0xFF#8 0xFF#8 = 0x13#8 ∧ (∀ a b : Byte, gfmul a b = gfmul b a) ∧
  gfmul 0x57#8 0x83#8 = 0xC1#8

/-! ### Key schedule -/

/-- 42_key_schedule.md section 1, R131, R132 and R133. RotWord, SubWord and the round constants, with the spec's
examples. The last clause, that each round constant is xtime of the one before it, is the sentence of R133 that the
spec marks as derived. -/
def Obligations.WordOperationsOfTheSchedule : Prop :=
  (∀ w : Word, rotWord w = w.extractLsb' 0 24 ++ w.extractLsb' 24 8) ∧
  (∀ w : Word, subWord w = sbox (w.extractLsb' 24 8) ++ sbox (w.extractLsb' 16 8) ++ sbox (w.extractLsb' 8 8) ++
    sbox (w.extractLsb' 0 8)) ∧
  rotWord 0x67204675#32 = 0x20467567#32 ∧ subWord 0x20467567#32 = 0xB75A9D85#32 ∧
  (List.range' 1 10).map rc =
    [0x01#8, 0x02#8, 0x04#8, 0x08#8, 0x10#8, 0x20#8, 0x40#8, 0x80#8, 0x1B#8, 0x36#8] ∧
  (∀ j, 1 ≤ j → j ≤ 9 → rc (j + 1) = xtime (rc j))

/-- R134. The 44 words of KeyExpansion(K): words 0 to 3 are the key, and every later word is the word four before it
XORed with the word before it, rotated, substituted and XORed with RC[i/4] at bits [31:24] when i mod 4 = 0. -/
def Obligations.KeyExpansionRecurrence : Prop :=
  ∀ k : Block,
    (∀ i, i < 4 → readWord (keyExpansion k) i = k.extractLsb' (96 - 32 * i) 32) ∧
    (∀ i, 4 ≤ i → i ≤ 43 →
      readWord (keyExpansion k) i =
        readWord (keyExpansion k) (i - 4) ^^^
          (if i % 4 = 0 then
            subWord (rotWord (readWord (keyExpansion k) (i - 1))) ^^^ ((rc (i / 4)).setWidth 32 <<< 24)
           else readWord (keyExpansion k) (i - 1)))

/-- 42_key_schedule.md section 2, R135 to R139 (which the spec derives): one round key at a time gives the same words,
round key 0 is the key, and the expansion is injective. -/
def Obligations.KeyExpansionByRoundKeys : Prop :=
  (∀ (k : Block) (j : Nat), 1 ≤ j → j ≤ 10 →
    let w := readWord (keyExpansion k)
    let t := subWord (rotWord (w (4 * j - 1))) ^^^ ((rc j).setWidth 32 <<< 24)
    w (4 * j) = w (4 * j - 4) ^^^ t ∧ w (4 * j + 1) = w (4 * j - 3) ^^^ w (4 * j) ∧
    w (4 * j + 2) = w (4 * j - 2) ^^^ w (4 * j + 1) ∧ w (4 * j + 3) = w (4 * j - 1) ^^^ w (4 * j + 2)) ∧
  (∀ k : Block, roundKey (keyExpansion k) 0 = k) ∧
  (∀ k k' : Block, keyExpansion k = keyExpansion k' → k = k')

/-- 42_key_schedule.md section 3, R140, with the end of R141 (which the spec derives). LOAD_KEY: at its accept edge
the key goes to W[0..3], KV and DONE to 0, PHASE to KEXP and RND to 1 (R140); exactly 10 busy edges follow (R140);
then KV = 1 and W is the expansion of the key alone, the sentence of R141 that the spec derives (so the same key twice
gives the same W). -/
def Obligations.LoadKeyCommand : Prop :=
  (∀ s : State, ∃ v, exec .loadKey s =
      .next { s with w := v, kv := false, phase := .kexp, rnd := 1#4, done := false } ∧
    readWord v 0 = s.ports.keyIn.extractLsb' 96 32 ∧ readWord v 1 = s.ports.keyIn.extractLsb' 64 32 ∧
    readWord v 2 = s.ports.keyIn.extractLsb' 32 32 ∧ readWord v 3 = s.ports.keyIn.extractLsb' 0 32 ∧
    ∀ i, 4 ≤ i → readWord v i = readWord s.w i) ∧
  OnlyWordOf .loadKey 0x0001#16 ∧
  (∀ s : State, Accepts s 0x0001#16 → NoReset 11 s →
    BusyExactly 10 s ∧
    runEdges 11 s = .next { s with w := keyExpansion s.ports.keyIn, kv := true, done := true,
                                   drive := s.drive.drop 11 }) ∧
  roundKey (keyExpansion 0#128) 1 = 0x62636363626363636263636362636363#128 ∧
  roundKey (keyExpansion 0x5468617473206d79204b756e67204675#128) 10 = 0x28fddef86da4244accc0a4fe3b316f26#128

/-- 42_key_schedule.md section 3, R141 (its last sentence is derived by the spec). The KEXP step at j = RND writes the
four words of round key j and no other word; at j = 10 it ends the sequence and sets KV, and from a state with the
invariant W is then the expansion of the key in W[0..3]. It reads no port but `rst`. -/
def Obligations.KexpStepWritesOneRoundKey : Prop :=
  ∀ s : State, s.ports.rst = false → s.phase = .kexp → 1 ≤ s.rnd.toNat → s.rnd.toNat ≤ 10 →
    let j := s.rnd.toNat
    let t := subWord (rotWord (readWord s.w (4 * j - 1))) ^^^ ((rc j).setWidth 32 <<< 24)
    let n0 := readWord s.w (4 * j - 4) ^^^ t
    let n1 := readWord s.w (4 * j - 3) ^^^ n0
    let n2 := readWord s.w (4 * j - 2) ^^^ n1
    let n3 := readWord s.w (4 * j - 1) ^^^ n2
    ∃ v,
      (j = 10 → step s = .next { s with w := v, kv := true, phase := .idle, rnd := 0#4, done := true,
                                        drive := s.drive.tail }) ∧
      (j ≠ 10 → step s = .next { s with w := v, rnd := BitVec.ofNat 4 (j + 1), drive := s.drive.tail }) ∧
      readWord v (4 * j) = n0 ∧ readWord v (4 * j + 1) = n1 ∧ readWord v (4 * j + 2) = n2 ∧
      readWord v (4 * j + 3) = n3 ∧
      (∀ i, i < 4 * j ∨ 4 * j + 4 ≤ i → readWord v i = readWord s.w i) ∧
      (Inv s → j = 10 → v = keyExpansion (roundKey s.w 0))

/-- R143. READ_ROUND_KEY r: AUX takes RK(r) when r is at most 10 and a key is valid; BAD_ROUND_INDEX comes before
NO_KEY, and in each error case AUX is unchanged. -/
def Obligations.ReadRoundKeyCommand : Prop :=
  (∀ (r : Nibble) (s : State),
    (10 < r.toNat → exec (.readRoundKey r) s =
      .next { s with ecode := if s.err then s.ecode else .badRoundIndex, err := true, done := true }) ∧
    (r.toNat ≤ 10 → s.kv = false → exec (.readRoundKey r) s =
      .next { s with ecode := if s.err then s.ecode else .noKey, err := true, done := true }) ∧
    (r.toNat ≤ 10 → s.kv = true → exec (.readRoundKey r) s =
      .next { s with aux := readWord s.w (4 * r.toNat) ++ readWord s.w (4 * r.toNat + 1) ++
                       readWord s.w (4 * r.toNat + 2) ++ readWord s.w (4 * r.toNat + 3),
                     done := true })) ∧
  IndexedWordsOf .readRoundKey 0x0C#8 ∧
  (∀ k : Block, roundKey (keyExpansion k) 0 = k) ∧
  roundKey (keyExpansion 0x5468617473206d79204b756e67204675#128) 1 = 0xe232fcf191129188b159e4e6d679a293#128

/-- 42_key_schedule.md section 3, R142 (which the spec derives). The schedule is immutable while KV = 1: from a state
with the invariant and KV = 1, a step leaves W alone unless it accepts LOAD_KEY, which clears KV at the same edge. -/
def Obligations.ScheduleIsImmutableWhileKeyValid : Prop :=
  ∀ s t : State, Inv s → s.kv = true → step s = .next t →
    t.w = s.w ∨ (Accepts s 0x0001#16 ∧ t.kv = false)

/-- 20_memory.md section 1, R62 and U2: the unspecified words of W never show. Take two states with the invariant that
differ in W only, and there only while KV = 0, above the words already expanded when a key is expanding. Then one step
of each leads to two such states again, so no output ever tells them apart. This holds whatever value reset leaves in
W. -/
def Obligations.UnspecifiedStoreWordsNeverShow : Prop :=
  ∀ s s' : State, Inv s → Inv s' → s' = { s with w := s'.w } → (s.kv = true → s'.w = s.w) →
    (s.phase = .kexp → ∀ i, i < 4 * s.rnd.toNat → readWord s'.w i = readWord s.w i) →
    ∃ t t', step s = .next t ∧ step s' = .next t' ∧ t' = { t with w := t'.w } ∧ (t.kv = true → t'.w = t.w) ∧
      (t.phase = .kexp → ∀ i, i < 4 * t.rnd.toNat → readWord t'.w i = readWord t.w i)

/-- 42_key_schedule.md section 3, R144 (which the spec derives). Determinism of the schedule: two states, however
different, that accept LOAD_KEY with the same `key_in` and meet no reset hold the same W after its last edge. -/
def Obligations.ScheduleDependsOnTheKeyAlone : Prop :=
  ∀ s s' : State, Accepts s 0x0001#16 → Accepts s' 0x0001#16 → s.ports.keyIn = s'.ports.keyIn →
    NoReset 11 s → NoReset 11 s' →
    ∃ t t', runEdges 11 s = .next t ∧ runEdges 11 s' = .next t' ∧ t.w = t'.w ∧ t.kv = true ∧ t'.kv = true

/-! ### Round transforms -/

/-- R160, R161, R169, R170. SUB_BYTES and INV_SUB_BYTES replace every byte of ST by its table entry. -/
def Obligations.SubBytesCommands : Prop :=
  (∀ s : State, exec .subBytes s = .next { s with st := subBytes s.st, done := true }) ∧
  (∀ s : State, exec .invSubBytes s = .next { s with st := invSubBytes s.st, done := true }) ∧
  (∀ (v : Block) (i : Nat), i < 16 →
    byte (subBytes v) i = sbox (byte v i) ∧ byte (invSubBytes v) i = invSbox (byte v i)) ∧
  OnlyWordOf .subBytes 0x0005#16 ∧ OnlyWordOf .invSubBytes 0x0006#16 ∧
  (∀ v : Block, invSubBytes (subBytes v) = v) ∧
  subBytes 0x000102030405060708090a0b0c0d0e0f#128 = 0x637c777bf26b6fc53001672bfed7ab76#128 ∧
  invSubBytes 0x000102030405060708090a0b0c0d0e0f#128 = 0x52096ad53036a538bf40a39e81f3d7fb#128 ∧
  subBytes 0#128 = 0x63636363636363636363636363636363#128 ∧
  invSubBytes 0x63636363636363636363636363636363#128 = 0#128 ∧
  subBytes 0x001f0e543c4e08596e221b0b4774311a#128 = 0x63c0ab20eb2f30cb9f93af2ba092c7a2#128 ∧
  invSubBytes 0x63c0ab20eb2f30cb9f93af2ba092c7a2#128 = 0x001f0e543c4e08596e221b0b4774311a#128

/-- R162, R163, R171, R172. SHIFT_ROWS moves row r of ST left by r places and INV_SHIFT_ROWS right by r places; four
shifts are none, and INV_SHIFT_ROWS is three SHIFT_ROWS. -/
def Obligations.ShiftRowsCommands : Prop :=
  (∀ s : State, exec .shiftRows s = .next { s with st := shiftRows s.st, done := true }) ∧
  (∀ s : State, exec .invShiftRows s = .next { s with st := invShiftRows s.st, done := true }) ∧
  (∀ (v : Block) (r c : Nat), r < 4 → c < 4 →
    cell (shiftRows v) r c = cell v r ((c + r) % 4) ∧
    cell (invShiftRows v) r c = cell v r (((c : Int) - (r : Int)) % 4).toNat) ∧
  OnlyWordOf .shiftRows 0x0007#16 ∧ OnlyWordOf .invShiftRows 0x0008#16 ∧
  (∀ v : Block, col v 0 = col v 1 → col v 1 = col v 2 → col v 2 = col v 3 → shiftRows v = v) ∧
  (∀ (v : Block) (c : Nat), c < 4 → cell (shiftRows v) 0 c = cell v 0 c) ∧
  (∀ v : Block, shiftRows (shiftRows (shiftRows (shiftRows v))) = v ∧ invShiftRows (shiftRows v) = v ∧
    invShiftRows v = shiftRows (shiftRows (shiftRows v))) ∧
  shiftRows 0x000102030405060708090a0b0c0d0e0f#128 = 0x00050a0f04090e03080d02070c01060b#128 ∧
  invShiftRows 0x000102030405060708090a0b0c0d0e0f#128 = 0x000d0a0704010e0b0805020f0c090603#128 ∧
  shiftRows 0x63c0ab20eb2f30cb9f93af2ba092c7a2#128 = 0x632fafa2eb93c7209f92abcba0c0302b#128 ∧
  invShiftRows 0x632fafa2eb93c7209f92abcba0c0302b#128 = 0x63c0ab20eb2f30cb9f93af2ba092c7a2#128

/-- 43_round_transforms.md sections 1 and 2 (the arrangement of the matrix is the spec's decision D33, from general
knowledge: R164, R165). MIX_COLUMNS and INV_MIX_COLUMNS replace every column of ST by its product with the circulant
matrix; a column of four equal bytes is unchanged; the second undoes the first. -/
def Obligations.MixColumnsCommands : Prop :=
  (∀ s : State, exec .mixColumns s = .next { s with st := mixColumns s.st, done := true }) ∧
  (∀ s : State, exec .invMixColumns s = .next { s with st := invMixColumns s.st, done := true }) ∧
  (∀ (v : Block) (c : Nat), c < 4 →
    let a0 := cell v 0 c
    let a1 := cell v 1 c
    let a2 := cell v 2 c
    let a3 := cell v 3 c
    cell (mixColumns v) 0 c = gfmul 2#8 a0 ^^^ gfmul 3#8 a1 ^^^ gfmul 1#8 a2 ^^^ gfmul 1#8 a3 ∧
    cell (mixColumns v) 1 c = gfmul 1#8 a0 ^^^ gfmul 2#8 a1 ^^^ gfmul 3#8 a2 ^^^ gfmul 1#8 a3 ∧
    cell (mixColumns v) 2 c = gfmul 1#8 a0 ^^^ gfmul 1#8 a1 ^^^ gfmul 2#8 a2 ^^^ gfmul 3#8 a3 ∧
    cell (mixColumns v) 3 c = gfmul 3#8 a0 ^^^ gfmul 1#8 a1 ^^^ gfmul 1#8 a2 ^^^ gfmul 2#8 a3 ∧
    cell (invMixColumns v) 0 c = gfmul 14#8 a0 ^^^ gfmul 11#8 a1 ^^^ gfmul 13#8 a2 ^^^ gfmul 9#8 a3 ∧
    cell (invMixColumns v) 1 c = gfmul 9#8 a0 ^^^ gfmul 14#8 a1 ^^^ gfmul 11#8 a2 ^^^ gfmul 13#8 a3 ∧
    cell (invMixColumns v) 2 c = gfmul 13#8 a0 ^^^ gfmul 9#8 a1 ^^^ gfmul 14#8 a2 ^^^ gfmul 11#8 a3 ∧
    cell (invMixColumns v) 3 c = gfmul 11#8 a0 ^^^ gfmul 13#8 a1 ^^^ gfmul 9#8 a2 ^^^ gfmul 14#8 a3) ∧
  OnlyWordOf .mixColumns 0x0009#16 ∧ OnlyWordOf .invMixColumns 0x000A#16 ∧
  (∀ v : Block,
    (∀ c, c < 4 → cell v 0 c = cell v 1 c ∧ cell v 1 c = cell v 2 c ∧ cell v 2 c = cell v 3 c) →
    mixColumns v = v ∧ invMixColumns v = v) ∧
  (∀ v : Block, invMixColumns (mixColumns v) = v) ∧
  mixColumns 0xdb135345f20a225c01010101d4d4d4d5#128 = 0x8e4da1bc9fdc589d01010101d5d5d7d6#128 ∧
  mixColumns 0x80000000800000008000000080000000#128 = 0x1b80809b1b80809b1b80809b1b80809b#128 ∧
  invMixColumns 0x8e4da1bcdb1353458000000001010101#128 = 0xdb13534532a41d5541ecdaf701010101#128 ∧
  mixColumns 0x632fafa2eb93c7209f92abcba0c0302b#128 = 0xba75f47a84a48d32e88d060e1b407d5d#128 ∧
  invMixColumns 0xba75f47a84a48d32e88d060e1b407d5d#128 = 0x632fafa2eb93c7209f92abcba0c0302b#128

/-- R166, R175. ADD_ROUND_KEY r: ST is XORed with RK(r) when r is at most 10 and a key is valid; BAD_ROUND_INDEX comes
before NO_KEY, and in each error case ST is unchanged; the transform is its own inverse. -/
def Obligations.AddRoundKeyCommand : Prop :=
  (∀ (r : Nibble) (s : State),
    (10 < r.toNat → exec (.addRoundKey r) s =
      .next { s with ecode := if s.err then s.ecode else .badRoundIndex, err := true, done := true }) ∧
    (r.toNat ≤ 10 → s.kv = false → exec (.addRoundKey r) s =
      .next { s with ecode := if s.err then s.ecode else .noKey, err := true, done := true }) ∧
    (r.toNat ≤ 10 → s.kv = true → exec (.addRoundKey r) s =
      .next { s with st := s.st ^^^ (readWord s.w (4 * r.toNat) ++ readWord s.w (4 * r.toNat + 1) ++
                       readWord s.w (4 * r.toNat + 2) ++ readWord s.w (4 * r.toNat + 3)),
                     done := true })) ∧
  IndexedWordsOf .addRoundKey 0x0B#8 ∧
  (∀ v k : Block, addRoundKey v k = v ^^^ k ∧ addRoundKey (addRoundKey v k) k = v) ∧
  (∀ k : Block, addRoundKey 0#128 (roundKey (keyExpansion k) 0) = k) ∧
  addRoundKey 0xba75f47a84a48d32e88d060e1b407d5d#128
    (roundKey (keyExpansion 0x5468617473206d79204b756e67204675#128) 1) = 0x5847088b15b61cba59d4e2e8cd39dfce#128

/-- 43_round_transforms.md section 1, R167 (which the spec derives). The inverse laws of the transforms, the two that
commute, and linearity. -/
def Obligations.InverseLawsOfTheTransforms : Prop :=
  (∀ v : Block, invSubBytes (subBytes v) = v ∧ subBytes (invSubBytes v) = v) ∧
  (∀ v : Block, invShiftRows (shiftRows v) = v ∧ shiftRows (invShiftRows v) = v) ∧
  (∀ v : Block, invMixColumns (mixColumns v) = v ∧ mixColumns (invMixColumns v) = v) ∧
  (∀ v k : Block, addRoundKey (addRoundKey v k) k = v) ∧
  (∀ v : Block, subBytes (shiftRows v) = shiftRows (subBytes v) ∧
    invSubBytes (invShiftRows v) = invShiftRows (invSubBytes v)) ∧
  (∀ v u : Block, mixColumns (v ^^^ u) = mixColumns v ^^^ mixColumns u ∧
    invMixColumns (v ^^^ u) = invMixColumns v ^^^ invMixColumns u)

/-! ### The cipher -/

/-- R190 to R195. The rounds, and the whole cipher in both directions written out round by round. -/
def Obligations.CipherWrittenOutByRounds : Prop :=
  (∀ s k : Block,
    fullRound s k = addRoundKey (mixColumns (shiftRows (subBytes s))) k ∧
    finalRound s k = addRoundKey (shiftRows (subBytes s)) k ∧
    invRound s k = invMixColumns (addRoundKey (invSubBytes (invShiftRows s)) k) ∧
    invFinalRound s k = addRoundKey (invSubBytes (invShiftRows s)) k) ∧
  (∀ (w : RoundKeyStore) (x : Block),
    let f := fun (r : Nat) (s : Block) => fullRound s (roundKey w r)
    let g := fun (r : Nat) (s : Block) => invRound s (roundKey w r)
    cipher w x =
      finalRound (f 9 (f 8 (f 7 (f 6 (f 5 (f 4 (f 3 (f 2 (f 1 (addRoundKey x (roundKey w 0)))))))))))
        (roundKey w 10) ∧
    invCipher w x =
      invFinalRound (g 1 (g 2 (g 3 (g 4 (g 5 (g 6 (g 7 (g 8 (g 9 (addRoundKey x (roundKey w 10)))))))))))
        (roundKey w 0))

/-- 44_cipher_sequencer.md section 1, R196 (which the spec derives). Under one schedule, whatever words it holds, the
inverse cipher undoes the cipher and the cipher undoes the inverse cipher. -/
def Obligations.InverseCipherUndoesTheCipher : Prop :=
  ∀ (w : RoundKeyStore) (x : Block), invCipher w (cipher w x) = x ∧ cipher w (invCipher w x) = x

/-- R198. ENCRYPT: at its accept edge ST takes din ^ RK(0), PHASE ENC, RND 1 and DONE 0, with exactly 10 busy edges
after it, and then ST is the cipher of din; NO_KEY when KV = 0, the core staying as it is but for ERR, ECODE and
DONE. -/
def Obligations.EncryptCommand : Prop :=
  (∀ s : State, s.kv = true → exec .encrypt s =
    .next { s with st := s.ports.din ^^^ roundKey s.w 0, phase := .enc, rnd := 1#4, done := false }) ∧
  (∀ s : State, s.kv = false → exec .encrypt s =
    .next { s with ecode := if s.err then s.ecode else .noKey, err := true, done := true }) ∧
  OnlyWordOf .encrypt 0x0002#16 ∧
  (∀ s : State, Accepts s 0x0002#16 → s.kv = true → NoReset 11 s →
    BusyExactly 10 s ∧ ∃ t, runEdges 11 s = .next t ∧ t.st = cipher s.w s.ports.din) ∧
  cipher (keyExpansion 0x5468617473206d79204b756e67204675#128) 0x54776f204f6e65204e696e652054776f#128 =
    0x29c3505f571420f6402299b31a02d73a#128

/-- R200. DECRYPT: at its accept edge ST takes din ^ RK(10), PHASE DEC, RND 9 and DONE 0, with exactly 10 busy edges
after it, and then ST is the inverse cipher of din; NO_KEY when KV = 0; it undoes ENCRYPT, and is not ENCRYPT. -/
def Obligations.DecryptCommand : Prop :=
  (∀ s : State, s.kv = true → exec .decrypt s =
    .next { s with st := s.ports.din ^^^ roundKey s.w 10, phase := .dec, rnd := 9#4, done := false }) ∧
  (∀ s : State, s.kv = false → exec .decrypt s =
    .next { s with ecode := if s.err then s.ecode else .noKey, err := true, done := true }) ∧
  OnlyWordOf .decrypt 0x0003#16 ∧
  (∀ s : State, Accepts s 0x0003#16 → s.kv = true → NoReset 11 s →
    BusyExactly 10 s ∧ ∃ t, runEdges 11 s = .next t ∧ t.st = invCipher s.w s.ports.din) ∧
  (∀ (w : RoundKeyStore) (x : Block), invCipher w (cipher w x) = x) ∧ (∃ w x, invCipher w x ≠ cipher w x) ∧
  invCipher (keyExpansion 0x5468617473206d79204b756e67204675#128) 0x29c3505f571420f6402299b31a02d73a#128 =
    0x54776f204f6e65204e696e652054776f#128

/-- R199. The ENC step at r = RND: a full round with RK(r) for r up to 9, the final round at r = 10, which returns the
sequencer to IDLE and sets DONE. It writes no other register and reads no port but `rst`. -/
def Obligations.EncStepPerformsOneRound : Prop :=
  ∀ s : State, s.ports.rst = false → s.phase = .enc → 1 ≤ s.rnd.toNat → s.rnd.toNat ≤ 10 →
    (s.rnd.toNat ≤ 9 → step s =
      .next { s with st := fullRound s.st (roundKey s.w s.rnd.toNat), rnd := BitVec.ofNat 4 (s.rnd.toNat + 1),
                     drive := s.drive.tail }) ∧
    (s.rnd.toNat = 10 → step s =
      .next { s with st := finalRound s.st (roundKey s.w 10), phase := .idle, rnd := 0#4, done := true,
                     drive := s.drive.tail })

/-- R201. The DEC step at r = RND: a full inverse round with RK(r) for r from 9 down to 1, the final inverse round at
r = 0, which returns the sequencer to IDLE and sets DONE. -/
def Obligations.DecStepPerformsOneInverseRound : Prop :=
  ∀ s : State, s.ports.rst = false → s.phase = .dec → s.rnd.toNat ≤ 9 →
    (1 ≤ s.rnd.toNat → step s =
      .next { s with st := invRound s.st (roundKey s.w s.rnd.toNat), rnd := BitVec.ofNat 4 (s.rnd.toNat - 1),
                     drive := s.drive.tail }) ∧
    (s.rnd.toNat = 0 → step s =
      .next { s with st := invFinalRound s.st (roundKey s.w 0), phase := .idle, rnd := 0#4, done := true,
                     drive := s.drive.tail })

/-- R197. The 11 round boundaries of each direction: after edge En of an ENCRYPT or DECRYPT accepted with KV = 1, and
no reset up to it, the whole state is the one before with ST, PHASE, RND and DONE as the table gives them; after E10
ST is the cipher's result. -/
def Obligations.RoundBoundariesOfBothDirections : Prop :=
  (∀ (s : State) (n : Nat), Accepts s 0x0002#16 → s.kv = true → n ≤ 9 → NoReset (n + 1) s →
    runEdges (n + 1) s =
      .next { s with
        st := (List.range' 1 n).foldl (fun v r => fullRound v (roundKey s.w r)) (s.ports.din ^^^ roundKey s.w 0),
        phase := .enc, rnd := BitVec.ofNat 4 (n + 1), done := false, drive := s.drive.drop (n + 1) }) ∧
  (∀ s : State, Accepts s 0x0002#16 → s.kv = true → NoReset 11 s →
    runEdges 11 s =
      .next { s with st := cipher s.w s.ports.din, phase := .idle, rnd := 0#4, done := true,
                     drive := s.drive.drop 11 }) ∧
  (∀ (s : State) (n : Nat), Accepts s 0x0003#16 → s.kv = true → n ≤ 9 → NoReset (n + 1) s →
    runEdges (n + 1) s =
      .next { s with
        st := ([9, 8, 7, 6, 5, 4, 3, 2, 1].take n).foldl (fun v r => invRound v (roundKey s.w r))
          (s.ports.din ^^^ roundKey s.w 10),
        phase := .dec, rnd := BitVec.ofNat 4 (9 - n), done := false, drive := s.drive.drop (n + 1) }) ∧
  (∀ s : State, Accepts s 0x0003#16 → s.kv = true → NoReset 11 s →
    runEdges 11 s =
      .next { s with st := invCipher s.w s.ports.din, phase := .idle, rnd := 0#4, done := true,
                     drive := s.drive.drop 11 })

/-- R204. No data-dependent choice: at an ENC or DEC step the next (PHASE, RND) is a function of (PHASE, RND) alone,
and every ENCRYPT and every DECRYPT performed takes exactly 10 busy edges, whatever the key and data. -/
def Obligations.SequencerReadsOnlyItsCounter : Prop :=
  (∀ s s' : State, s.ports.rst = false → s'.ports.rst = false → (s.phase = .enc ∨ s.phase = .dec) →
    sequencerLegal s.phase s.rnd = true → s'.phase = s.phase → s'.rnd = s.rnd →
    ∃ t t', step s = .next t ∧ step s' = .next t' ∧ t'.phase = t.phase ∧ t'.rnd = t.rnd) ∧
  (∀ s : State, (Accepts s 0x0002#16 ∨ Accepts s 0x0003#16) → s.kv = true → NoReset 11 s → BusyExactly 10 s)

/-- 44_cipher_sequencer.md section 2, R207 (which the spec derives). The pseudo-instructions ENCRYPT_STEPWISE and
DECRYPT_STEPWISE of R89, performed in a state that could accept ENCRYPT or DECRYPT with the same `din`, leave every
register as that command's run to its end does. -/
def Obligations.StepwiseCommandsEqualTheSequencer : Prop :=
  (∀ s : State, Accepts s 0x0002#16 → s.kv = true → NoReset 11 s →
    ∃ t u, runEdges 11 s = .next t ∧ execAll encryptStepwise s = .next u ∧ u = { t with drive := s.drive }) ∧
  (∀ s : State, Accepts s 0x0003#16 → s.kv = true → NoReset 11 s →
    ∃ t u, runEdges 11 s = .next t ∧ execAll decryptStepwise s = .next u ∧ u = { t with drive := s.drive })

/-! ### Control and timing -/

/-- R220. NOP sets DONE and leaves everything else; 0x0100 is not a NOP but raises ILLEGAL_COMMAND. -/
def Obligations.NopCommand : Prop :=
  (∀ s : State, exec .nop s = .next { s with done := true }) ∧ OnlyWordOf .nop 0x0000#16 ∧
  decode 0x0100#16 = .illegal

/-- R221. LOAD_STATE copies `din` to ST without change, in the column-major layout; `state_out` shows it from the next
edge on. -/
def Obligations.LoadStateCommand : Prop :=
  (∀ s : State, exec .loadState s = .next { s with st := s.ports.din, done := true }) ∧
  OnlyWordOf .loadState 0x0004#16 ∧
  (∀ s : State, Accepts s 0x0004#16 → ∃ t, step s = .next t ∧ t.stateOut = s.ports.din) ∧
  cell 0x00112233445566778899aabbccddeeff#128 0 0 = 0x00#8 ∧
  cell 0x00112233445566778899aabbccddeeff#128 1 0 = 0x11#8 ∧
  cell 0x00112233445566778899aabbccddeeff#128 0 1 = 0x44#8

/-- R222. CLEAR_STATUS clears ERR and ECODE and sets DONE; an ill-formed word such as 0x0110 raises ILLEGAL_COMMAND
and clears nothing; no other command lowers ERR. -/
def Obligations.ClearStatusCommand : Prop :=
  (∀ s : State, exec .clearStatus s = .next { s with err := false, ecode := .noError, done := true }) ∧
  OnlyWordOf .clearStatus 0x0010#16 ∧
  (∀ s : State, s.err = false → s.ecode = .noError → exec .clearStatus s = .next { s with done := true }) ∧
  (∀ s : State, Accepts s 0x0110#16 →
    ∃ t, step s = .next t ∧ t.err = true ∧ t.ecode = if s.err then s.ecode else .illegalCommand) ∧
  (∀ (i : Instr) (s t : State), exec i s = .next t → s.err = true → t.err = false → i = .clearStatus) ∧
  (∀ s t : State, exec .clearStatus s = .next t → t.status.extractLsb' 3 3 = 0#3)

/-- 70_reset_and_hazards.md section 3, R290. Every accepted word: no busy edge after a single-cycle command or an
erroring one, exactly 10 after LOAD_KEY, and after ENCRYPT and DECRYPT with a key, as long as no reset comes. -/
def Obligations.BusyEdgesOfEveryCommand : Prop :=
  ∀ (s : State) (c : Cmd), Accepts s c → NoReset (busyEdgesOf c s.kv + 1) s → BusyExactly (busyEdgesOf c s.kv) s
end

