-- ==== Sys2Proof/Laws/Bytes.lean ====
section
/-! SUPPORT. The byte, cell and column views: what each builder puts where, and that a block is known by its bytes,
its cells or its columns. -/

namespace Sys2Proof.Machine

theorem getLsbD_byte (v : Block) (i k : Nat) :
    (byte v i).getLsbD k = (decide (k < 8) && v.getLsbD (120 - 8 * i + k)) := by
  simp [byte]

theorem getLsbD_col (v : Block) (c k : Nat) :
    (col v c).getLsbD k = (decide (k < 32) && v.getLsbD (96 - 32 * c + k)) := by
  simp [col]

theorem getLsbD_wbyte (w : Word) (i k : Nat) :
    (wbyte w i).getLsbD k = (decide (k < 8) && w.getLsbD (24 - 8 * i + k)) := by
  simp [wbyte]

theorem byte_ofBytes (f : Nat → Byte) (i : Nat) (h : i < 16) : byte (ofBytes f) i = f i := by
  apply BitVec.eq_of_getLsbD_eq
  intro k hk
  rw [getLsbD_byte]
  unfold ofBytes
  interval_cases i <;>
    simp only [hk, decide_true, Bool.true_and] <;>
    (repeat rw [BitVec.getLsbD_append, if_neg (by omega)]) <;>
    (try rw [BitVec.getLsbD_append, if_pos (by omega)]) <;>
    exact congrArg (BitVec.getLsbD _) (by omega)

theorem col_ofCols (f : Nat → Word) (c : Nat) (h : c < 4) : col (ofCols f) c = f c := by
  apply BitVec.eq_of_getLsbD_eq
  intro k hk
  rw [getLsbD_col]
  unfold ofCols
  interval_cases c <;>
    simp only [hk, decide_true, Bool.true_and] <;>
    (repeat rw [BitVec.getLsbD_append, if_neg (by omega)]) <;>
    (try rw [BitVec.getLsbD_append, if_pos (by omega)]) <;>
    exact congrArg (BitVec.getLsbD _) (by omega)

theorem wbyte_wordOfBytes (f : Nat → Byte) (i : Nat) (h : i < 4) : wbyte (wordOfBytes f) i = f i := by
  apply BitVec.eq_of_getLsbD_eq
  intro k hk
  rw [getLsbD_wbyte]
  unfold wordOfBytes
  interval_cases i <;>
    simp only [hk, decide_true, Bool.true_and] <;>
    (repeat rw [BitVec.getLsbD_append, if_neg (by omega)]) <;>
    (try rw [BitVec.getLsbD_append, if_pos (by omega)]) <;>
    exact congrArg (BitVec.getLsbD _) (by omega)

theorem cell_ofCells (f : Nat → Nat → Byte) (r c : Nat) (hr : r < 4) (hc : c < 4) :
    cell (ofCells f) r c = f r c := by
  unfold cell ofCells
  rw [byte_ofBytes _ _ (by omega), Nat.mul_add_mod, Nat.mod_eq_of_lt hr]
  exact congrArg (f r) (by omega)

/-- A block is known by its bytes. -/
theorem eq_of_byte (u v : Block) (h : ∀ i, i < 16 → byte u i = byte v i) : u = v := by
  apply BitVec.eq_of_getLsbD_eq
  intro n hn
  have hb := congrArg (fun b => b.getLsbD (n % 8)) (h (15 - n / 8) (by omega))
  have e : 120 - 8 * (15 - n / 8) + n % 8 = n := by omega
  simp only [getLsbD_byte, e, Nat.mod_lt n (show 8 > 0 by omega), decide_true, Bool.true_and] at hb
  exact hb

/-- A block is known by the cells of its matrix. -/
theorem eq_of_cell (u v : Block) (h : ∀ r c, r < 4 → c < 4 → cell u r c = cell v r c) : u = v := by
  refine eq_of_byte u v fun i hi => ?_
  have e : 4 * (i / 4) + i % 4 = i := by omega
  have hc := h (i % 4) (i / 4) (by omega) (by omega)
  simpa [cell, e] using hc

/-- A block is known by its columns. -/
theorem eq_of_col (u v : Block) (h : ∀ c, c < 4 → col u c = col v c) : u = v := by
  apply BitVec.eq_of_getLsbD_eq
  intro n hn
  have hb := congrArg (fun b => b.getLsbD (n % 32)) (h (3 - n / 32) (by omega))
  have e : 96 - 32 * (3 - n / 32) + n % 32 = n := by omega
  simp only [getLsbD_col, e, Nat.mod_lt n (show 32 > 0 by omega), decide_true, Bool.true_and] at hb
  exact hb

theorem byte_xor (u v : Block) (i : Nat) : byte (u ^^^ v) i = byte u i ^^^ byte v i := by
  apply BitVec.eq_of_getLsbD_eq
  intro k _
  simp only [getLsbD_byte, BitVec.getLsbD_xor]
  cases decide (k < 8) <;> simp

theorem cell_xor (u v : Block) (r c : Nat) : cell (u ^^^ v) r c = cell u r c ^^^ cell v r c :=
  byte_xor u v _

/-- The columns of a block make it up. -/
theorem ofCols_col (v : Block) : ofCols (col v) = v :=
  eq_of_col _ _ fun c hc => col_ofCols _ c hc

end Sys2Proof.Machine
end

