-- ==== Sys2Proof/Laws/Decode.lean ====
section
/-! SUPPORT. The fields of a command word and the opcode map: a word is its three fields, and the map gives exactly
the command of an assigned OP. -/

namespace Sys2Proof

theorem word_eq_fields (c : Cmd) : rsvField c ++ idxField c ++ opField c = c := by
  apply BitVec.eq_of_getLsbD_eq
  intro i hi
  simp only [rsvField, idxField, opField, BitVec.getLsbD_append, BitVec.getLsbD_extractLsb']
  split_ifs with h1 h2
  · simp [h1]
  · simp only [h2, decide_true, Bool.true_and]; exact congrArg c.getLsbD (by omega)
  · simp only [show i - 8 - 4 < 4 by omega, decide_true, Bool.true_and]; exact congrArg c.getLsbD (by omega)

theorem rsvField_word (r i : Nibble) (o : Byte) : rsvField (r ++ i ++ o) = r := by
  apply BitVec.eq_of_getLsbD_eq
  intro k hk
  simp only [rsvField, BitVec.getLsbD_extractLsb', hk, decide_true, Bool.true_and, BitVec.getLsbD_append]
  rw [if_neg (by omega), if_neg (by omega)]; exact congrArg _ (by omega)

theorem idxField_word (r i : Nibble) (o : Byte) : idxField (r ++ i ++ o) = i := by
  apply BitVec.eq_of_getLsbD_eq
  intro k hk
  simp only [idxField, BitVec.getLsbD_extractLsb', hk, decide_true, Bool.true_and, BitVec.getLsbD_append]
  rw [if_neg (by omega), if_pos (by omega)]; exact congrArg _ (by omega)

theorem opField_word (r i : Nibble) (o : Byte) : opField (r ++ i ++ o) = o := by
  apply BitVec.eq_of_getLsbD_eq
  intro k hk
  simp only [opField, BitVec.getLsbD_extractLsb', hk, decide_true, Bool.true_and, BitVec.getLsbD_append]
  rw [if_pos (by omega)]; exact congrArg _ (by omega)

theorem rsvField_encode (i : Instr) : rsvField (encode i) = 0#4 := rsvField_word _ _ _

theorem idxField_encode (i : Instr) : idxField (encode i) = i.index := idxField_word _ _ _

theorem opField_encode (i : Instr) : opField (encode i) = i.opcode := opField_word _ _ _

/-- The opcode map gives the command with that OP, and with the index when the OP is indexed (R83). -/
theorem commandOf_eq_some (op : Byte) (idx : Nibble) (i : Instr) :
    commandOf op idx = some i ↔ i.opcode = op ∧ i.index = if indexedOp op then idx else 0#4 := by
  constructor
  · intro h
    unfold commandOf at h
    split at h <;> cases h <;>
    (rename_i h
     have e : op = BitVec.ofNat 8 op.toNat := by simp
     rw [h] at e; subst e; exact ⟨rfl, rfl⟩)
  · rintro ⟨rfl, h⟩
    cases i <;> simp_all [Instr.opcode, Instr.index, indexedOp, commandOf]

/-- The opcode map gives nothing exactly for OP above 0x10 (R83). -/
theorem commandOf_eq_none (op : Byte) (idx : Nibble) : commandOf op idx = none ↔ 0x10#8 < op := by
  constructor
  · intro h
    by_contra hn
    obtain ⟨n, hlt, rfl⟩ : ∃ n, n < 17 ∧ op = BitVec.ofNat 8 n :=
      ⟨op.toNat, by simpa [BitVec.lt_def, Nat.lt_succ_iff] using hn, by simp⟩
    interval_cases n <;> cases h
  · intro h
    have h17 : 16 < op.toNat := by simpa [BitVec.lt_def] using h
    unfold commandOf
    split <;> first | omega | rfl

/-- The legal indices are 0 to 10 (R82). -/
theorem legalIndex_iff (x : Nibble) : legalIndex x = true ↔ x.toNat ≤ 10 := by
  simp [legalIndex]

/-- An indexed command is legal exactly when its index is; the others always are (R82, R85). -/
theorem wf_eq (i : Instr) : i.wf = (!indexedOp i.opcode || legalIndex i.index) := by
  cases i <;> rfl

/-- The index of a command without one is 0 (R80). -/
theorem index_of_not_indexedOp (i : Instr) (h : indexedOp i.opcode = false) : i.index = 0#4 := by
  cases i <;> first | rfl | cases h

end Sys2Proof
end

