-- ==== Sys2Proof/Laws/Gf.lean ====
section
/-! SUPPORT. The multiplier is additive in each operand, and an additive function of a byte is known by its values at
the eight single bits. -/

namespace Sys2Proof.Machine

theorem gfmulLoop_xor_right (n : Nat) (p p' a b b' : Byte) :
    gfmulLoop n (p ^^^ p') a (b ^^^ b') = gfmulLoop n p a b ^^^ gfmulLoop n p' a b' := by
  induction n generalizing p p' a b b' with
  | zero => rfl
  | succ n ih =>
    simp only [gfmulLoop, BitVec.ushiftRight_xor_distrib, BitVec.getLsbD_xor]
    rw [← ih]
    congr 1
    cases b.getLsbD 0 <;> cases b'.getLsbD 0 <;> simp
    · ac_rfl
    · ac_rfl
    · rw [show p ^^^ a ^^^ (p' ^^^ a) = p ^^^ p' ^^^ (a ^^^ a) by ac_rfl]; simp

theorem gfmulLoop_xor_left (n : Nat) (p p' a a' b : Byte) :
    gfmulLoop n (p ^^^ p') (a ^^^ a') b = gfmulLoop n p a b ^^^ gfmulLoop n p' a' b := by
  induction n generalizing p p' a a' b with
  | zero => rfl
  | succ n ih =>
    simp only [gfmulLoop, BitVec.getLsbD_xor]
    rw [← ih]
    congr 1
    · cases b.getLsbD 0 <;> simp
      ac_rfl
    · cases a.getLsbD 7 <;> cases a'.getLsbD 7 <;> simp [BitVec.shiftLeft_xor_distrib]
      · ac_rfl
      · ac_rfl
      · rw [show ∀ x y z : Byte, x ^^^ z ^^^ (y ^^^ z) = x ^^^ y ^^^ (z ^^^ z) by intros; ac_rfl]; simp

theorem gfmul_xor_right (a b b' : Byte) : gfmul a (b ^^^ b') = gfmul a b ^^^ gfmul a b' := by
  simpa [gfmul] using gfmulLoop_xor_right 8 0#8 0#8 a b b'

theorem gfmul_xor_left (a a' b : Byte) : gfmul (a ^^^ a') b = gfmul a b ^^^ gfmul a' b := by
  simpa [gfmul] using gfmulLoop_xor_left 8 0#8 0#8 a a' b

/-- The bytes with one bit set. -/
def singleBits : List Byte := [0x01#8, 0x02#8, 0x04#8, 0x08#8, 0x10#8, 0x20#8, 0x40#8, 0x80#8]

/-- A byte is the XOR of its bits. -/
theorem byte_eq_xor_bits (x : Byte) : x =
    (if x.getLsbD 0 then 0x01#8 else 0#8) ^^^ ((if x.getLsbD 1 then 0x02#8 else 0#8) ^^^
    ((if x.getLsbD 2 then 0x04#8 else 0#8) ^^^ ((if x.getLsbD 3 then 0x08#8 else 0#8) ^^^
    ((if x.getLsbD 4 then 0x10#8 else 0#8) ^^^ ((if x.getLsbD 5 then 0x20#8 else 0#8) ^^^
    ((if x.getLsbD 6 then 0x40#8 else 0#8) ^^^ (if x.getLsbD 7 then 0x80#8 else 0#8))))))) := by
  revert x; decide +kernel

/-- Two additive functions that agree on the single bits agree. -/
theorem additive_ext (f g : Byte → Byte) (hf : ∀ x y, f (x ^^^ y) = f x ^^^ f y)
    (hg : ∀ x y, g (x ^^^ y) = g x ^^^ g y) (h : ∀ m ∈ singleBits, f m = g m) (x : Byte) : f x = g x := by
  have zero : ∀ k : Byte → Byte, (∀ x y, k (x ^^^ y) = k x ^^^ k y) → k 0#8 = 0#8 := fun k hk => by
    simpa using hk 0#8 0#8
  have bit : ∀ m ∈ singleBits, ∀ b : Bool, f (if b then m else 0#8) = g (if b then m else 0#8) := by
    intro m hm b
    cases b
    · simp [zero f hf, zero g hg]
    · simpa using h m hm
  rw [byte_eq_xor_bits x]
  simp only [hf, hg]
  simp only [bit 0x01#8 (by decide), bit 0x02#8 (by decide), bit 0x04#8 (by decide), bit 0x08#8 (by decide),
    bit 0x10#8 (by decide), bit 0x20#8 (by decide), bit 0x40#8 (by decide), bit 0x80#8 (by decide)]

end Sys2Proof.Machine
end

