-- ==== Sys2Proof/Laws/State.lean ====
section
/-! SUPPORT. One lemma per register and operation of Machine/Ops.lean: what the register holds afterwards. Later
proofs rewrite with these and do not unfold a record update. -/

namespace Sys2Proof.Machine.State

@[simp] theorem writeSt_st (s : State) (v : Block) :
    (s.writeSt v).st = v := rfl
@[simp] theorem writeSt_aux (s : State) (v : Block) :
    (s.writeSt v).aux = s.aux := rfl
@[simp] theorem writeSt_w (s : State) (v : Block) :
    (s.writeSt v).w = s.w := rfl
@[simp] theorem writeSt_kv (s : State) (v : Block) :
    (s.writeSt v).kv = s.kv := rfl
@[simp] theorem writeSt_done (s : State) (v : Block) :
    (s.writeSt v).done = s.done := rfl
@[simp] theorem writeSt_err (s : State) (v : Block) :
    (s.writeSt v).err = s.err := rfl
@[simp] theorem writeSt_ecode (s : State) (v : Block) :
    (s.writeSt v).ecode = s.ecode := rfl
@[simp] theorem writeSt_phase (s : State) (v : Block) :
    (s.writeSt v).phase = s.phase := rfl
@[simp] theorem writeSt_rnd (s : State) (v : Block) :
    (s.writeSt v).rnd = s.rnd := rfl
@[simp] theorem writeSt_drive (s : State) (v : Block) :
    (s.writeSt v).drive = s.drive := rfl
@[simp] theorem writeSt_ports (s : State) (v : Block) :
    (s.writeSt v).ports = s.ports := rfl

@[simp] theorem writeAux_st (s : State) (v : Block) :
    (s.writeAux v).st = s.st := rfl
@[simp] theorem writeAux_aux (s : State) (v : Block) :
    (s.writeAux v).aux = v := rfl
@[simp] theorem writeAux_w (s : State) (v : Block) :
    (s.writeAux v).w = s.w := rfl
@[simp] theorem writeAux_kv (s : State) (v : Block) :
    (s.writeAux v).kv = s.kv := rfl
@[simp] theorem writeAux_done (s : State) (v : Block) :
    (s.writeAux v).done = s.done := rfl
@[simp] theorem writeAux_err (s : State) (v : Block) :
    (s.writeAux v).err = s.err := rfl
@[simp] theorem writeAux_ecode (s : State) (v : Block) :
    (s.writeAux v).ecode = s.ecode := rfl
@[simp] theorem writeAux_phase (s : State) (v : Block) :
    (s.writeAux v).phase = s.phase := rfl
@[simp] theorem writeAux_rnd (s : State) (v : Block) :
    (s.writeAux v).rnd = s.rnd := rfl
@[simp] theorem writeAux_drive (s : State) (v : Block) :
    (s.writeAux v).drive = s.drive := rfl
@[simp] theorem writeAux_ports (s : State) (v : Block) :
    (s.writeAux v).ports = s.ports := rfl

@[simp] theorem writeStore_st (s : State) (v : RoundKeyStore) :
    (s.writeStore v).st = s.st := rfl
@[simp] theorem writeStore_aux (s : State) (v : RoundKeyStore) :
    (s.writeStore v).aux = s.aux := rfl
@[simp] theorem writeStore_w (s : State) (v : RoundKeyStore) :
    (s.writeStore v).w = v := rfl
@[simp] theorem writeStore_kv (s : State) (v : RoundKeyStore) :
    (s.writeStore v).kv = s.kv := rfl
@[simp] theorem writeStore_done (s : State) (v : RoundKeyStore) :
    (s.writeStore v).done = s.done := rfl
@[simp] theorem writeStore_err (s : State) (v : RoundKeyStore) :
    (s.writeStore v).err = s.err := rfl
@[simp] theorem writeStore_ecode (s : State) (v : RoundKeyStore) :
    (s.writeStore v).ecode = s.ecode := rfl
@[simp] theorem writeStore_phase (s : State) (v : RoundKeyStore) :
    (s.writeStore v).phase = s.phase := rfl
@[simp] theorem writeStore_rnd (s : State) (v : RoundKeyStore) :
    (s.writeStore v).rnd = s.rnd := rfl
@[simp] theorem writeStore_drive (s : State) (v : RoundKeyStore) :
    (s.writeStore v).drive = s.drive := rfl
@[simp] theorem writeStore_ports (s : State) (v : RoundKeyStore) :
    (s.writeStore v).ports = s.ports := rfl

@[simp] theorem writeKv_st (s : State) (b : Bool) :
    (s.writeKv b).st = s.st := rfl
@[simp] theorem writeKv_aux (s : State) (b : Bool) :
    (s.writeKv b).aux = s.aux := rfl
@[simp] theorem writeKv_w (s : State) (b : Bool) :
    (s.writeKv b).w = s.w := rfl
@[simp] theorem writeKv_kv (s : State) (b : Bool) :
    (s.writeKv b).kv = b := rfl
@[simp] theorem writeKv_done (s : State) (b : Bool) :
    (s.writeKv b).done = s.done := rfl
@[simp] theorem writeKv_err (s : State) (b : Bool) :
    (s.writeKv b).err = s.err := rfl
@[simp] theorem writeKv_ecode (s : State) (b : Bool) :
    (s.writeKv b).ecode = s.ecode := rfl
@[simp] theorem writeKv_phase (s : State) (b : Bool) :
    (s.writeKv b).phase = s.phase := rfl
@[simp] theorem writeKv_rnd (s : State) (b : Bool) :
    (s.writeKv b).rnd = s.rnd := rfl
@[simp] theorem writeKv_drive (s : State) (b : Bool) :
    (s.writeKv b).drive = s.drive := rfl
@[simp] theorem writeKv_ports (s : State) (b : Bool) :
    (s.writeKv b).ports = s.ports := rfl

@[simp] theorem writeRnd_st (s : State) (r : Nibble) :
    (s.writeRnd r).st = s.st := rfl
@[simp] theorem writeRnd_aux (s : State) (r : Nibble) :
    (s.writeRnd r).aux = s.aux := rfl
@[simp] theorem writeRnd_w (s : State) (r : Nibble) :
    (s.writeRnd r).w = s.w := rfl
@[simp] theorem writeRnd_kv (s : State) (r : Nibble) :
    (s.writeRnd r).kv = s.kv := rfl
@[simp] theorem writeRnd_done (s : State) (r : Nibble) :
    (s.writeRnd r).done = s.done := rfl
@[simp] theorem writeRnd_err (s : State) (r : Nibble) :
    (s.writeRnd r).err = s.err := rfl
@[simp] theorem writeRnd_ecode (s : State) (r : Nibble) :
    (s.writeRnd r).ecode = s.ecode := rfl
@[simp] theorem writeRnd_phase (s : State) (r : Nibble) :
    (s.writeRnd r).phase = s.phase := rfl
@[simp] theorem writeRnd_rnd (s : State) (r : Nibble) :
    (s.writeRnd r).rnd = r := rfl
@[simp] theorem writeRnd_drive (s : State) (r : Nibble) :
    (s.writeRnd r).drive = s.drive := rfl
@[simp] theorem writeRnd_ports (s : State) (r : Nibble) :
    (s.writeRnd r).ports = s.ports := rfl

@[simp] theorem complete_st (s : State) :
    (s.complete).st = s.st := rfl
@[simp] theorem complete_aux (s : State) :
    (s.complete).aux = s.aux := rfl
@[simp] theorem complete_w (s : State) :
    (s.complete).w = s.w := rfl
@[simp] theorem complete_kv (s : State) :
    (s.complete).kv = s.kv := rfl
@[simp] theorem complete_done (s : State) :
    (s.complete).done = true := rfl
@[simp] theorem complete_err (s : State) :
    (s.complete).err = s.err := rfl
@[simp] theorem complete_ecode (s : State) :
    (s.complete).ecode = s.ecode := rfl
@[simp] theorem complete_phase (s : State) :
    (s.complete).phase = s.phase := rfl
@[simp] theorem complete_rnd (s : State) :
    (s.complete).rnd = s.rnd := rfl
@[simp] theorem complete_drive (s : State) :
    (s.complete).drive = s.drive := rfl
@[simp] theorem complete_ports (s : State) :
    (s.complete).ports = s.ports := rfl

@[simp] theorem startSequence_st (s : State) (p : Phase) (r : Nibble) :
    (s.startSequence p r).st = s.st := rfl
@[simp] theorem startSequence_aux (s : State) (p : Phase) (r : Nibble) :
    (s.startSequence p r).aux = s.aux := rfl
@[simp] theorem startSequence_w (s : State) (p : Phase) (r : Nibble) :
    (s.startSequence p r).w = s.w := rfl
@[simp] theorem startSequence_kv (s : State) (p : Phase) (r : Nibble) :
    (s.startSequence p r).kv = s.kv := rfl
@[simp] theorem startSequence_done (s : State) (p : Phase) (r : Nibble) :
    (s.startSequence p r).done = false := rfl
@[simp] theorem startSequence_err (s : State) (p : Phase) (r : Nibble) :
    (s.startSequence p r).err = s.err := rfl
@[simp] theorem startSequence_ecode (s : State) (p : Phase) (r : Nibble) :
    (s.startSequence p r).ecode = s.ecode := rfl
@[simp] theorem startSequence_phase (s : State) (p : Phase) (r : Nibble) :
    (s.startSequence p r).phase = p := rfl
@[simp] theorem startSequence_rnd (s : State) (p : Phase) (r : Nibble) :
    (s.startSequence p r).rnd = r := rfl
@[simp] theorem startSequence_drive (s : State) (p : Phase) (r : Nibble) :
    (s.startSequence p r).drive = s.drive := rfl
@[simp] theorem startSequence_ports (s : State) (p : Phase) (r : Nibble) :
    (s.startSequence p r).ports = s.ports := rfl

@[simp] theorem finishSequence_st (s : State) :
    (s.finishSequence).st = s.st := rfl
@[simp] theorem finishSequence_aux (s : State) :
    (s.finishSequence).aux = s.aux := rfl
@[simp] theorem finishSequence_w (s : State) :
    (s.finishSequence).w = s.w := rfl
@[simp] theorem finishSequence_kv (s : State) :
    (s.finishSequence).kv = s.kv := rfl
@[simp] theorem finishSequence_done (s : State) :
    (s.finishSequence).done = true := rfl
@[simp] theorem finishSequence_err (s : State) :
    (s.finishSequence).err = s.err := rfl
@[simp] theorem finishSequence_ecode (s : State) :
    (s.finishSequence).ecode = s.ecode := rfl
@[simp] theorem finishSequence_phase (s : State) :
    (s.finishSequence).phase = .idle := rfl
@[simp] theorem finishSequence_rnd (s : State) :
    (s.finishSequence).rnd = 0#4 := rfl
@[simp] theorem finishSequence_drive (s : State) :
    (s.finishSequence).drive = s.drive := rfl
@[simp] theorem finishSequence_ports (s : State) :
    (s.finishSequence).ports = s.ports := rfl

@[simp] theorem recordError_st (s : State) (e : ErrorCode) :
    (s.recordError e).st = s.st := rfl
@[simp] theorem recordError_aux (s : State) (e : ErrorCode) :
    (s.recordError e).aux = s.aux := rfl
@[simp] theorem recordError_w (s : State) (e : ErrorCode) :
    (s.recordError e).w = s.w := rfl
@[simp] theorem recordError_kv (s : State) (e : ErrorCode) :
    (s.recordError e).kv = s.kv := rfl
@[simp] theorem recordError_done (s : State) (e : ErrorCode) :
    (s.recordError e).done = true := rfl
@[simp] theorem recordError_err (s : State) (e : ErrorCode) :
    (s.recordError e).err = true := rfl
@[simp] theorem recordError_ecode (s : State) (e : ErrorCode) :
    (s.recordError e).ecode = (if s.err then s.ecode else e) := rfl
@[simp] theorem recordError_phase (s : State) (e : ErrorCode) :
    (s.recordError e).phase = s.phase := rfl
@[simp] theorem recordError_rnd (s : State) (e : ErrorCode) :
    (s.recordError e).rnd = s.rnd := rfl
@[simp] theorem recordError_drive (s : State) (e : ErrorCode) :
    (s.recordError e).drive = s.drive := rfl
@[simp] theorem recordError_ports (s : State) (e : ErrorCode) :
    (s.recordError e).ports = s.ports := rfl

@[simp] theorem clearError_st (s : State) :
    (s.clearError).st = s.st := rfl
@[simp] theorem clearError_aux (s : State) :
    (s.clearError).aux = s.aux := rfl
@[simp] theorem clearError_w (s : State) :
    (s.clearError).w = s.w := rfl
@[simp] theorem clearError_kv (s : State) :
    (s.clearError).kv = s.kv := rfl
@[simp] theorem clearError_done (s : State) :
    (s.clearError).done = s.done := rfl
@[simp] theorem clearError_err (s : State) :
    (s.clearError).err = false := rfl
@[simp] theorem clearError_ecode (s : State) :
    (s.clearError).ecode = .noError := rfl
@[simp] theorem clearError_phase (s : State) :
    (s.clearError).phase = s.phase := rfl
@[simp] theorem clearError_rnd (s : State) :
    (s.clearError).rnd = s.rnd := rfl
@[simp] theorem clearError_drive (s : State) :
    (s.clearError).drive = s.drive := rfl
@[simp] theorem clearError_ports (s : State) :
    (s.clearError).ports = s.ports := rfl

@[simp] theorem resetEdge_st (s : State) :
    (s.resetEdge).st = 0#128 := rfl
@[simp] theorem resetEdge_aux (s : State) :
    (s.resetEdge).aux = 0#128 := rfl
@[simp] theorem resetEdge_w (s : State) :
    (s.resetEdge).w = s.w := rfl
@[simp] theorem resetEdge_kv (s : State) :
    (s.resetEdge).kv = false := rfl
@[simp] theorem resetEdge_done (s : State) :
    (s.resetEdge).done = false := rfl
@[simp] theorem resetEdge_err (s : State) :
    (s.resetEdge).err = false := rfl
@[simp] theorem resetEdge_ecode (s : State) :
    (s.resetEdge).ecode = .noError := rfl
@[simp] theorem resetEdge_phase (s : State) :
    (s.resetEdge).phase = .idle := rfl
@[simp] theorem resetEdge_rnd (s : State) :
    (s.resetEdge).rnd = 0#4 := rfl
@[simp] theorem resetEdge_drive (s : State) :
    (s.resetEdge).drive = s.drive := rfl
@[simp] theorem resetEdge_ports (s : State) :
    (s.resetEdge).ports = s.ports := rfl

@[simp] theorem advance_st (s : State) :
    (s.advance).st = s.st := rfl
@[simp] theorem advance_aux (s : State) :
    (s.advance).aux = s.aux := rfl
@[simp] theorem advance_w (s : State) :
    (s.advance).w = s.w := rfl
@[simp] theorem advance_kv (s : State) :
    (s.advance).kv = s.kv := rfl
@[simp] theorem advance_done (s : State) :
    (s.advance).done = s.done := rfl
@[simp] theorem advance_err (s : State) :
    (s.advance).err = s.err := rfl
@[simp] theorem advance_ecode (s : State) :
    (s.advance).ecode = s.ecode := rfl
@[simp] theorem advance_phase (s : State) :
    (s.advance).phase = s.phase := rfl
@[simp] theorem advance_rnd (s : State) :
    (s.advance).rnd = s.rnd := rfl
@[simp] theorem advance_drive (s : State) :
    (s.advance).drive = s.drive.tail := rfl

end Sys2Proof.Machine.State
end

