-- ==== Sys2Proof/Laws/Ops.lean ====
section
/-! SUPPORT. What the shared checks and the sequencer steps can do, one equation a case: an index or key check that
fails records its error, and a KEXP, ENC or DEC step is its full step or its final step. -/

namespace Sys2Proof.Machine

theorem requireKey_valid (s t : State) (h : s.kv = true) : s.requireKey t = t := by
  simp [State.requireKey, h]

theorem requireKey_missing (s t : State) (h : s.kv = false) : s.requireKey t = s.recordError .noKey := by
  simp [State.requireKey, h]

theorem requireIndexAndKey_badIndex (s t : State) (idx : Nibble) (h : 10 < idx.toNat) :
    s.requireIndexAndKey idx t = s.recordError .badRoundIndex := by
  simp [State.requireIndexAndKey, indexOperand, h]

theorem requireIndexAndKey_missing (s t : State) (idx : Nibble) (h : idx.toNat ≤ 10) (hk : s.kv = false) :
    s.requireIndexAndKey idx t = s.recordError .noKey := by
  rw [State.requireIndexAndKey, indexOperand, if_neg (by omega), requireKey_missing s t hk]

theorem requireIndexAndKey_valid (s t : State) (idx : Nibble) (h : idx.toNat ≤ 10) (hk : s.kv = true) :
    s.requireIndexAndKey idx t = t := by
  rw [State.requireIndexAndKey, indexOperand, if_neg (by omega), requireKey_valid s t hk]

/-- The KEXP step writes the store in the same way at every j. -/
theorem kexpStep_w (s : State) : (kexpStep s).w = expandRoundKey s.w s.rnd.toNat := by
  simp only [kexpStep]
  split_ifs <;> rfl

theorem kexpStep_final (s : State) (h : s.rnd = 10#4) :
    kexpStep s = { s with w := expandRoundKey s.w 10, kv := true, phase := .idle, rnd := 0#4, done := true } := by
  simp [kexpStep, h, State.writeStore, State.writeKv, State.finishSequence]

theorem kexpStep_more (s : State) (h : s.rnd ≠ 10#4) :
    kexpStep s = { s with w := expandRoundKey s.w s.rnd.toNat, rnd := s.rnd + 1#4 } := by
  simp [kexpStep, h, State.writeStore, State.writeRnd]

theorem encStep_final (s : State) (h : s.rnd = 10#4) :
    encStep s = { s with st := finalRound s.st (roundKey s.w 10), phase := .idle, rnd := 0#4, done := true } := by
  simp [encStep, h, State.writeSt, State.finishSequence]

theorem encStep_more (s : State) (h : s.rnd ≠ 10#4) :
    encStep s = { s with st := fullRound s.st (roundKey s.w s.rnd.toNat), rnd := s.rnd + 1#4 } := by
  simp [encStep, h, State.writeSt, State.writeRnd]

theorem decStep_final (s : State) (h : s.rnd = 0#4) :
    decStep s = { s with st := invFinalRound s.st (roundKey s.w 0), phase := .idle, rnd := 0#4, done := true } := by
  simp [decStep, h, State.writeSt, State.finishSequence]

theorem decStep_more (s : State) (h : s.rnd ≠ 0#4) :
    decStep s = { s with st := invRound s.st (roundKey s.w s.rnd.toNat), rnd := s.rnd - 1#4 } := by
  simp [decStep, h, State.writeSt, State.writeRnd]

end Sys2Proof.Machine
end

