-- ==== Sys2Proof/Laws/PerInstr.lean ====
section
/-! SUPPORT. One fact about every command as syntax, constructor by constructor: its encoded word has RSV = 0, an
assigned OP, and IDX = 0 unless the command is one of the two indexed ones (30_encoding.md R80, R83). -/

namespace Sys2Proof.Laws.EncodeFields

/-- The bits of the word of `i`, by the ranges of R80 and R83. -/
def Statement (i : Instr) : Prop :=
  (encode i).extractLsb' 12 4 = 0#4 ∧ (encode i).extractLsb' 0 8 ≤ 0x10#8 ∧
    ((encode i).extractLsb' 8 4 = 0#4 ∨ (encode i).extractLsb' 0 8 = 0x0B#8 ∨ (encode i).extractLsb' 0 8 = 0x0C#8)

theorem nop : Statement .nop := by unfold Statement; decide

theorem loadKey : Statement .loadKey := by unfold Statement; decide

theorem encrypt : Statement .encrypt := by unfold Statement; decide

theorem decrypt : Statement .decrypt := by unfold Statement; decide

theorem loadState : Statement .loadState := by unfold Statement; decide

theorem subBytes : Statement .subBytes := by unfold Statement; decide

theorem invSubBytes : Statement .invSubBytes := by unfold Statement; decide

theorem shiftRows : Statement .shiftRows := by unfold Statement; decide

theorem invShiftRows : Statement .invShiftRows := by unfold Statement; decide

theorem mixColumns : Statement .mixColumns := by unfold Statement; decide

theorem invMixColumns : Statement .invMixColumns := by unfold Statement; decide

theorem addRoundKey (idx : Nibble) : Statement (.addRoundKey idx) := by
  revert idx
  unfold Statement
  decide

theorem readRoundKey (idx : Nibble) : Statement (.readRoundKey idx) := by
  revert idx
  unfold Statement
  decide

theorem sbox : Statement .sbox := by unfold Statement; decide

theorem invSbox : Statement .invSbox := by unfold Statement; decide

theorem gfMul : Statement .gfMul := by unfold Statement; decide

theorem clearStatus : Statement .clearStatus := by unfold Statement; decide

end Sys2Proof.Laws.EncodeFields
end

