-- ==== Sys2Proof/Laws/Step.lean ====
section
/-! SUPPORT. What one step can do, said once: each case of the edge as an equation on `step`, what an accepted word
does, and how a run of edges unfolds. Later proofs cite these and do not unfold the step. -/

namespace Sys2Proof.Machine

theorem cmdReady_iff (s : State) : s.cmdReady = true ↔ s.phase = .idle ∧ s.ports.rst = false := by
  simp [State.cmdReady, State.busy]

theorem sequencerLegal_idle (r : Nibble) : sequencerLegal .idle r = true ↔ r = 0#4 := by
  simp [sequencerLegal]

/-- What an accept needs, on the registers and the ports (R41). -/
theorem accepts_iff (s : State) (c : Cmd) :
    Accepts s c ↔ s.phase = .idle ∧ s.rnd = 0#4 ∧ s.ports.rst = false ∧ s.ports.cmdValid = true ∧ s.ports.cmd = c := by
  unfold Accepts
  rw [cmdReady_iff]
  constructor
  · rintro ⟨hl, ⟨hp, hr⟩, hv, hc⟩
    rw [hp] at hl
    exact ⟨hp, (sequencerLegal_idle _).1 hl, hr, hv, hc⟩
  · rintro ⟨hp, hn, hr, hv, hc⟩
    exact ⟨by rw [hp, hn]; rfl, ⟨hp, hr⟩, hv, hc⟩

theorem step_of_rst (s : State) (h : s.ports.rst = true) : step s = .next s.resetEdge.advance := by
  simp [step, clockEdge, edge, h]

theorem step_of_kexp (s : State) (hr : s.ports.rst = false) (hp : s.phase = .kexp)
    (hl : sequencerLegal s.phase s.rnd = true) : step s = .next (kexpStep s).advance := by
  rw [hp] at hl
  simp [step, clockEdge, edge, runningEdge, hr, hl, hp]

theorem step_of_enc (s : State) (hr : s.ports.rst = false) (hp : s.phase = .enc)
    (hl : sequencerLegal s.phase s.rnd = true) : step s = .next (encStep s).advance := by
  rw [hp] at hl
  simp [step, clockEdge, edge, runningEdge, hr, hl, hp]

theorem step_of_dec (s : State) (hr : s.ports.rst = false) (hp : s.phase = .dec)
    (hl : sequencerLegal s.phase s.rnd = true) : step s = .next (decStep s).advance := by
  rw [hp] at hl
  simp [step, clockEdge, edge, runningEdge, hr, hl, hp]

theorem step_of_idle (s : State) (hr : s.ports.rst = false) (hp : s.phase = .idle) (hn : s.rnd = 0#4)
    (hv : s.ports.cmdValid = false) : step s = .next s.advance := by
  simp [step, clockEdge, edge, runningEdge, hr, hp, hn, hv, sequencerLegal]

theorem step_of_illegalPair (s : State) (hr : s.ports.rst = false) (hl : sequencerLegal s.phase s.rnd = false) :
    step s = .fault .sequencerOutsideInvariant := by
  simp [step, clockEdge, edge, runningEdge, hr, hl]

/-- exec always answers a next state, and leaves the drive alone. -/
theorem exec_next (i : Instr) (s : State) : ∃ t, exec i s = .next t ∧ t.drive = s.drive := by
  cases i <;> refine ⟨_, rfl, ?_⟩ <;>
    simp [State.requireKey, State.requireIndexAndKey] <;> split_ifs <;> simp

/-- An accepted illegal word records ILLEGAL_COMMAND (R43, R84). -/
theorem step_of_illegal (s : State) (c : Cmd) (ha : Accepts s c) (hd : decode c = .illegal) :
    step s = .next (s.recordError .illegalCommand).advance := by
  obtain ⟨hp, hn, hr, hv, hc⟩ := (accepts_iff s c).1 ha
  simp [step, clockEdge, edge, runningEdge, hr, hp, hn, hv, sequencerLegal, accept, hc, hd]

/-- Any other accepted word performs the command it decodes to, and the edge passes (R43). -/
theorem step_of_command (s t : State) (c : Cmd) (i : Instr) (ha : Accepts s c)
    (hd : decode c = .ok i ∨ decode c = .badIndex i) (he : exec i s = .next t) : step s = .next t.advance := by
  obtain ⟨hp, hn, hr, hv, hc⟩ := (accepts_iff s c).1 ha
  obtain hd | hd := hd <;>
    simp [step, clockEdge, edge, runningEdge, hr, hp, hn, hv, sequencerLegal, accept, hc, hd, he]

/-- What a step that answers a next state has done: one of the cases of R40. -/
theorem step_cases (s t : State) (h : step s = .next t) :
    (s.ports.rst = true ∧ t = s.resetEdge.advance) ∨
    (s.ports.rst = false ∧ sequencerLegal s.phase s.rnd = true ∧
      (s.phase = .kexp ∧ t = (kexpStep s).advance ∨
       s.phase = .enc ∧ t = (encStep s).advance ∨
       s.phase = .dec ∧ t = (decStep s).advance ∨
       s.phase = .idle ∧ s.ports.cmdValid = false ∧ t = s.advance ∨
       Accepts s s.ports.cmd ∧
         (decode s.ports.cmd = .illegal ∧ t = (s.recordError .illegalCommand).advance ∨
          ∃ i u, (decode s.ports.cmd = .ok i ∨ decode s.ports.cmd = .badIndex i) ∧ exec i s = .next u ∧
            t = u.advance))) := by
  by_cases hr : s.ports.rst = true
  · rw [step_of_rst s hr] at h
    exact .inl ⟨hr, by cases h; rfl⟩
  simp only [Bool.not_eq_true] at hr
  by_cases hl : sequencerLegal s.phase s.rnd = true
  swap
  · rw [step_of_illegalPair s hr (by simpa using hl)] at h
    cases h
  refine .inr ⟨hr, hl, ?_⟩
  cases hp : s.phase with
  | kexp =>
    rw [step_of_kexp s hr hp hl] at h
    exact .inl ⟨rfl, by cases h; rfl⟩
  | enc =>
    rw [step_of_enc s hr hp hl] at h
    exact .inr (.inl ⟨rfl, by cases h; rfl⟩)
  | dec =>
    rw [step_of_dec s hr hp hl] at h
    exact .inr (.inr (.inl ⟨rfl, by cases h; rfl⟩))
  | idle =>
    have hn : s.rnd = 0#4 := (sequencerLegal_idle _).1 (hp ▸ hl)
    by_cases hv : s.ports.cmdValid = true
    swap
    · rw [step_of_idle s hr hp hn (by simpa using hv)] at h
      exact .inr (.inr (.inr (.inl ⟨rfl, by simpa using hv, by cases h; rfl⟩)))
    have ha : Accepts s s.ports.cmd := (accepts_iff s _).2 ⟨hp, hn, hr, hv, rfl⟩
    refine .inr (.inr (.inr (.inr ⟨ha, ?_⟩)))
    cases hd : decode s.ports.cmd with
    | illegal =>
      rw [step_of_illegal s _ ha hd] at h
      exact .inl ⟨rfl, by cases h; rfl⟩
    | badIndex i =>
      obtain ⟨u, he, -⟩ := exec_next i s
      rw [step_of_command s u _ i ha (.inr hd) he] at h
      exact .inr ⟨i, u, .inr rfl, he, by cases h; rfl⟩
    | ok i =>
      obtain ⟨u, he, -⟩ := exec_next i s
      rw [step_of_command s u _ i ha (.inl hd) he] at h
      exact .inr ⟨i, u, .inl rfl, he, by cases h; rfl⟩

theorem runEdges_zero (s : State) : runEdges 0 s = .next s := rfl

theorem runEdges_succ (n : Nat) (s t : State) (h : step s = .next t) : runEdges (n + 1) s = runEdges n t := by
  simp [runEdges, h]

/-- A run of `m + n` edges is a run of `m` and then of `n`. -/
theorem runEdges_add (m n : Nat) (s t : State) (h : runEdges m s = .next t) :
    runEdges (m + n) s = runEdges n t := by
  induction m generalizing s with
  | zero => cases h; simp
  | succ m ih =>
    rw [show m + 1 + n = m + n + 1 by omega]
    simp only [runEdges] at h ⊢
    cases hs : step s with
    | next u => rw [hs] at h; exact ih u h
    | fault r => rw [hs] at h; cases h
    | refused r => rw [hs] at h; cases h

/-- With no reset among the coming edges, the next edge has `rst` = 0, and so have those after it. -/
theorem NoReset.rst (n : Nat) (s : State) (h : NoReset (n + 1) s) : s.ports.rst = false := by
  unfold State.ports
  cases hd : s.drive with
  | nil => rfl
  | cons p rest => exact h p (by simp [hd])

theorem NoReset.tail (n : Nat) (s t : State) (h : NoReset (n + 1) s) (hd : t.drive = s.drive.tail) :
    NoReset n t := by
  intro p hp
  rw [hd] at hp
  cases he : s.drive with
  | nil => simp [he] at hp
  | cons q rest =>
    rw [he] at hp
    exact h p (by rw [he]; exact List.mem_cons_of_mem _ hp)

theorem NoReset.mono (n m : Nat) (s : State) (h : NoReset n s) (hm : m ≤ n) : NoReset m s := by
  intro p hp
  apply h p
  rw [← Nat.min_eq_left hm, ← List.take_take] at hp
  exact List.mem_of_mem_take hp

/-- After `m` of the coming edges, the next edge has `rst` = 0. -/
theorem NoReset.after (n m : Nat) (s t : State) (h : NoReset n s) (hm : m < n) (hd : t.drive = s.drive.drop m) :
    t.ports.rst = false := by
  refine NoReset.rst 0 t fun p hp => ?_
  rw [hd, List.take_drop] at hp
  exact NoReset.mono n (m + 1) s h hm p (List.mem_of_mem_drop (by simpa [Nat.add_comm] using hp))

/-- A run of one edge more takes its last step where the shorter run ends. -/
theorem runEdges_snoc (n : Nat) (s t : State) (h : runEdges n s = .next t) : runEdges (n + 1) s = step t := by
  rw [runEdges_add n 1 s t h]
  simp only [runEdges]
  cases step t <;> rfl

end Sys2Proof.Machine
end

