-- ==== Sys2Proof/Laws/Store.lean ====
section
/-! SUPPORT. The round-key store: reading after writing, a store is known by its words, and what the two writers of
the store (a key accepted, a round key expanded) leave at each index. -/

namespace Sys2Proof.Machine

/-- A word reads as written, and every other word as before; an index outside the store writes nothing. -/
theorem readWord_writeWord (w : RoundKeyStore) (i j : Nat) (v : Word) :
    readWord (writeWord w i v) j = if i = j ∧ j < 44 then v else readWord w j := by
  unfold readWord writeWord
  rw [Vector.getElem?_setIfInBounds]
  by_cases h : i = j <;> by_cases hj : j < 44 <;> simp [h, hj]

theorem readWord_of_le (w : RoundKeyStore) (i : Nat) (h : 44 ≤ i) : readWord w i = 0#32 := by
  unfold readWord
  rw [Vector.getElem?_eq_none h]; rfl

/-- A store is known by its 44 words. -/
theorem eq_of_readWord (u w : RoundKeyStore) (h : ∀ i, i < 44 → readWord u i = readWord w i) : u = w := by
  apply Vector.ext
  intro i hi
  simpa [readWord, hi] using h i hi

theorem readWord_replicate (i : Nat) : readWord (Vector.replicate 44 0#32) i = 0#32 := by
  unfold readWord
  rw [Vector.getElem?_replicate]
  split <;> rfl

theorem readWord_writeKeyWords (w : RoundKeyStore) (k : Block) (i : Nat) :
    readWord (writeKeyWords w k) i = if i < 4 then col k i else readWord w i := by
  simp only [writeKeyWords, readWord_writeWord]
  rcases i with _ | _ | _ | _ | i <;> simp

/-- Column c of RK(r) is W[4r + c] (R138). -/
theorem col_roundKey (w : RoundKeyStore) (r c : Nat) (h : c < 4) :
    col (roundKey w r) c = readWord w (4 * r + c) :=
  col_ofCols _ c h

theorem roundKey_congr (u w : RoundKeyStore) (r : Nat)
    (h : ∀ c, c < 4 → readWord u (4 * r + c) = readWord w (4 * r + c)) : roundKey u r = roundKey w r :=
  eq_of_col _ _ fun c hc => by rw [col_roundKey _ _ _ hc, col_roundKey _ _ _ hc, h c hc]

theorem roundKey_writeKeyWords (w : RoundKeyStore) (k : Block) : roundKey (writeKeyWords w k) 0 = k :=
  eq_of_col _ _ fun c hc => by
    rw [col_roundKey _ _ _ hc, readWord_writeKeyWords, if_pos (by omega)]
    exact congrArg (col k) (by omega)

/-- A round key expanded: the words outside W[4j..4j+3] stay. -/
theorem readWord_expandRoundKey_of_ne (w : RoundKeyStore) (j i : Nat) (h : i < 4 * j ∨ 4 * j + 4 ≤ i) :
    readWord (expandRoundKey w j) i = readWord w i := by
  simp only [expandRoundKey, readWord_writeWord]
  rw [if_neg (by omega), if_neg (by omega), if_neg (by omega), if_neg (by omega)]

/-- A round key expanded: word 4j is word 4j - 4 XORed with the transformed word 4j - 1 (R135). -/
theorem readWord_expandRoundKey_zero (w : RoundKeyStore) (j : Nat) (h : 4 * j + 3 < 44) :
    readWord (expandRoundKey w j) (4 * j) =
      readWord w (4 * j - 4) ^^^ (subWord (rotWord (readWord w (4 * j - 1))) ^^^ rcWord j) := by
  have h0 : 4 * j < 44 := by omega
  simp [expandRoundKey, readWord_writeWord, h0]

/-- A round key expanded: word 4j + n + 1 is the word four before it XORed with the word before it (R135). -/
theorem readWord_expandRoundKey_succ (w : RoundKeyStore) (j n : Nat) (hj : 1 ≤ j) (h : 4 * j + 3 < 44) (hn : n < 3) :
    readWord (expandRoundKey w j) (4 * j + n + 1) =
      readWord w (4 * j - 3 + n) ^^^ readWord (expandRoundKey w j) (4 * j + n) := by
  have h0 : 4 * j < 44 := by omega
  have h1 : 4 * j + 1 < 44 := by omega
  have h2 : 4 * j + 2 < 44 := by omega
  interval_cases n
  · simp [expandRoundKey, readWord_writeWord, h0, h1]
  · simp [expandRoundKey, readWord_writeWord, h1, h2, show 4 * j - 3 + 1 = 4 * j - 2 by omega]
  · simp [expandRoundKey, readWord_writeWord, h, h2, show 4 * j - 3 + 2 = 4 * j - 1 by omega]

/-- A round key expanded depends on the words of the round key before it only. -/
theorem readWord_expandRoundKey_congr (u w : RoundKeyStore) (j : Nat) (hj : 1 ≤ j) (h44 : 4 * j + 3 < 44)
    (h : ∀ i, i < 4 * j → readWord u i = readWord w i) (i : Nat) (hi : i < 4 * j + 4) :
    readWord (expandRoundKey u j) i = readWord (expandRoundKey w j) i := by
  by_cases hlt : i < 4 * j
  · rw [readWord_expandRoundKey_of_ne _ _ _ (.inl hlt), readWord_expandRoundKey_of_ne _ _ _ (.inl hlt), h i hlt]
  have h0 : readWord (expandRoundKey u j) (4 * j) = readWord (expandRoundKey w j) (4 * j) := by
    rw [readWord_expandRoundKey_zero _ _ h44, readWord_expandRoundKey_zero _ _ h44, h _ (by omega), h _ (by omega)]
  have hs : ∀ n, n < 3 → readWord (expandRoundKey u j) (4 * j + n) = readWord (expandRoundKey w j) (4 * j + n) →
      readWord (expandRoundKey u j) (4 * j + n + 1) = readWord (expandRoundKey w j) (4 * j + n + 1) := by
    intro n hn e
    rw [readWord_expandRoundKey_succ _ _ _ hj h44 hn, readWord_expandRoundKey_succ _ _ _ hj h44 hn, e,
      h _ (by omega)]
  have h1 := hs 0 (by omega) h0
  have h2 := hs 1 (by omega) h1
  have h3 := hs 2 (by omega) h2
  obtain rfl | rfl | rfl | rfl : i = 4 * j ∨ i = 4 * j + 1 ∨ i = 4 * j + 2 ∨ i = 4 * j + 3 := by omega
  · exact h0
  · exact h1
  · exact h2
  · exact h3

end Sys2Proof.Machine
end

