-- ==== Sys2Proof/Laws/Transforms.lean ====
section
/-! SUPPORT. Each round transform, byte by byte or cell by cell, in the words of its rule; and the MixColumns sums are
additive in the column. -/

namespace Sys2Proof.Machine

theorem byte_subBytes (v : Block) (i : Nat) (h : i < 16) : byte (subBytes v) i = sbox (byte v i) :=
  byte_ofBytes _ i h

theorem byte_invSubBytes (v : Block) (i : Nat) (h : i < 16) : byte (invSubBytes v) i = invSbox (byte v i) :=
  byte_ofBytes _ i h

theorem cell_subBytes (v : Block) (r c : Nat) (hr : r < 4) (hc : c < 4) :
    cell (subBytes v) r c = sbox (cell v r c) :=
  byte_subBytes v _ (by omega)

theorem cell_invSubBytes (v : Block) (r c : Nat) (hr : r < 4) (hc : c < 4) :
    cell (invSubBytes v) r c = invSbox (cell v r c) :=
  byte_invSubBytes v _ (by omega)

theorem cell_shiftRows (v : Block) (r c : Nat) (hr : r < 4) (hc : c < 4) :
    cell (shiftRows v) r c = cell v r ((c + r) % 4) :=
  cell_ofCells _ r c hr hc

theorem cell_invShiftRows (v : Block) (r c : Nat) (hr : r < 4) (hc : c < 4) :
    cell (invShiftRows v) r c = cell v r ((c + 4 - r) % 4) :=
  cell_ofCells _ r c hr hc

theorem cell_mixWith (k0 k1 k2 k3 : Byte) (v : Block) (r c : Nat) (hr : r < 4) (hc : c < 4) :
    cell (mixWith k0 k1 k2 k3 v) r c =
      circulantRow k0 k1 k2 k3 r (cell v 0 c) (cell v 1 c) (cell v 2 c) (cell v 3 c) :=
  cell_ofCells _ r c hr hc

theorem circulantRow_xor (k0 k1 k2 k3 : Byte) (r : Nat) (a0 a1 a2 a3 b0 b1 b2 b3 : Byte) :
    circulantRow k0 k1 k2 k3 r (a0 ^^^ b0) (a1 ^^^ b1) (a2 ^^^ b2) (a3 ^^^ b3) =
      circulantRow k0 k1 k2 k3 r a0 a1 a2 a3 ^^^ circulantRow k0 k1 k2 k3 r b0 b1 b2 b3 := by
  unfold circulantRow
  split <;> simp only [gfmul_xor_right] <;> ac_rfl

/-- A byte result is zero-extended (R69). -/
theorem zextByte_eq (b : Byte) : zextByte b = 0#120 ++ b := by
  apply BitVec.eq_of_getLsbD_eq
  intro i h
  rw [BitVec.getLsbD_append]
  split_ifs with hb
  · simp [zextByte, h]
  · simp [zextByte, h, BitVec.getLsbD_of_ge b i (by omega)]

end Sys2Proof.Machine
end

