-- ==== Sys2Proof/Tests/Slice0.lean ====
section
/-! SUPPORT. The model's own tests. Expected values come from the spec: the encodings of 30_encoding.md and the
vectors of 95_test_vectors.md (T1 to T8). The last part shows, for every statement with hypotheses, states and
operands that meet them. -/

namespace Sys2Proof.Tests

-- Many kernel evaluations: one after another, so that they do not each hold a thread of their own.
set_option Elab.async false

open Sys2Proof.Machine

/-! ### Small states -/

/-- The key of T1, "Thats my Kung Fu". -/
def katKey : Block := 0x5468617473206d79204b756e67204675#128

/-- The plaintext of T1, "Two One Nine Two". -/
def katPlain : Block := 0x54776f204f6e65204e696e652054776f#128

/-- The state after reset and a completed LOAD_KEY of the key of T1, with `v` in ST. -/
def keyed (v : Block) : State :=
  { State.reset with st := v, w := keyExpansion katKey, kv := true, done := true }

/-- A state in the middle of a key expansion, with the words of the key of T1. -/
def expanding (r : Nibble) : State :=
  { State.reset with w := keyExpansion katKey, phase := .kexp, rnd := r }

/-- A state in the middle of an ENCRYPT under the key of T1. -/
def ciphering (v : Block) (r : Nibble) : State :=
  { keyed v with phase := .enc, rnd := r, done := false }

/-- A state in the middle of a DECRYPT under the key of T1. -/
def deciphering (v : Block) (r : Nibble) : State :=
  { keyed v with phase := .dec, rnd := r, done := false }

/-- The levels of an offered command. -/
def offering (c : Cmd) (din key : Block) : Ports :=
  { rst := false, cmdValid := true, cmd := c, din := din, keyIn := key }

/-- The levels of a reset during which the host offers `c`. -/
def resetting (c : Cmd) : Ports :=
  { rst := true, cmdValid := true, cmd := c, din := 0#128, keyIn := 0#128 }

/-- `s` with the command word `c` offered at the coming edge, and a quiet host after it. -/
def offered (s : State) (c : Cmd) (din : Block) : State :=
  { s with drive := [offering c din 0#128] }

/-- One field of the next state, where there is one. -/
def seen {α : Type} (f : State → α) : Host.Outcome State Fault Refusal → Option α
  | .next t => some (f t)
  | .fault _ => none
  | .refused _ => none

/-! ### The well-formedness check -/

theorem test_wf_addRoundKey : (Instr.addRoundKey 11#4).wf = false ∧ (Instr.addRoundKey 15#4).wf = false ∧
    (Instr.addRoundKey 10#4).wf = true := by decide

theorem test_wf_readRoundKey : (Instr.readRoundKey 11#4).wf = false ∧ (Instr.readRoundKey 15#4).wf = false ∧
    (Instr.readRoundKey 10#4).wf = true := by decide

/-! ### Words written out from the encoding (R80, R83): RSV, IDX, OP -/

theorem test_decode_control :
    decode (0b0000#4 ++ 0b0000#4 ++ 0b00000000#8) = .ok .nop ∧
    decode (0b0000#4 ++ 0b0000#4 ++ 0b00000100#8) = .ok .loadState ∧
    decode (0b0000#4 ++ 0b0000#4 ++ 0b00010000#8) = .ok .clearStatus := by decide

theorem test_decode_keySchedule :
    decode (0b0000#4 ++ 0b0000#4 ++ 0b00000001#8) = .ok .loadKey ∧
    decode (0b0000#4 ++ 0b0000#4 ++ 0b00001100#8) = .ok (.readRoundKey 0#4) ∧
    decode (0b0000#4 ++ 0b0101#4 ++ 0b00001100#8) = .ok (.readRoundKey 5#4) := by decide

theorem test_decode_cipher :
    decode (0b0000#4 ++ 0b0000#4 ++ 0b00000010#8) = .ok .encrypt ∧
    decode (0b0000#4 ++ 0b0000#4 ++ 0b00000011#8) = .ok .decrypt := by decide

theorem test_decode_transforms :
    decode (0b0000#4 ++ 0b0000#4 ++ 0b00000101#8) = .ok .subBytes ∧
    decode (0b0000#4 ++ 0b0000#4 ++ 0b00000110#8) = .ok .invSubBytes ∧
    decode (0b0000#4 ++ 0b0000#4 ++ 0b00000111#8) = .ok .shiftRows ∧
    decode (0b0000#4 ++ 0b0000#4 ++ 0b00001000#8) = .ok .invShiftRows ∧
    decode (0b0000#4 ++ 0b0000#4 ++ 0b00001001#8) = .ok .mixColumns ∧
    decode (0b0000#4 ++ 0b0000#4 ++ 0b00001010#8) = .ok .invMixColumns ∧
    decode (0b0000#4 ++ 0b1010#4 ++ 0b00001011#8) = .ok (.addRoundKey 10#4) := by decide

theorem test_decode_sboxGf :
    decode (0b0000#4 ++ 0b0000#4 ++ 0b00001101#8) = .ok .sbox ∧
    decode (0b0000#4 ++ 0b0000#4 ++ 0b00001110#8) = .ok .invSbox ∧
    decode (0b0000#4 ++ 0b0000#4 ++ 0b00001111#8) = .ok .gfMul := by decide

/-- Words that T7 says do not name a legal command. -/
theorem test_decode_rejects :
    decode 0x0011#16 = .illegal ∧ decode 0x00FF#16 = .illegal ∧ decode 0x0100#16 = .illegal ∧
    decode 0x0102#16 = .illegal ∧ decode 0x100B#16 = .illegal ∧ decode 0x1C0B#16 = .illegal ∧
    decode 0x8000#16 = .illegal ∧ decode 0x0B0B#16 = .badIndex (.addRoundKey 11#4) ∧
    decode 0x0F0B#16 = .badIndex (.addRoundKey 15#4) ∧ decode 0x0B0C#16 = .badIndex (.readRoundKey 11#4) := by
  decide

theorem test_decodeTableWord :
    decodeTableWord 16 0x0002 = some .encrypt ∧ decodeTableWord 16 0x0A0B = some (.addRoundKey 10#4) ∧
    decodeTableWord 16 0x0011 = none := by decide

/-! ### One step, against T1 to T7 -/

/-- T7: NOP after reset. -/
theorem test_nop : seen State.status (step (offered State.reset 0x0000#16 0#128)) = some 0x0004#16 := by decide +kernel

/-- T1.2, E0: LOAD_KEY accepted. -/
theorem test_loadKey_accept :
    seen (fun t => (t.status, readWord t.w 0, readWord t.w 3))
      (step { State.reset with drive := [offering 0x0001#16 0#128 katKey] }) =
    some (0x0141#16, 0x54686174#32, 0x67204675#32) := by decide +kernel

/-- T1.2, E1 and E10: the first and the last KEXP step. -/
theorem test_kexpStep :
    seen (fun t => (t.status, readWord t.w 4, readWord t.w 7)) (step (expanding 1#4)) =
      some (0x0241#16, 0xe232fcf1#32, 0xd679a293#32) ∧
    seen (fun t => (t.status, readWord t.w 40, readWord t.w 43)) (step (expanding 10#4)) =
      some (0x0006#16, 0x28fddef8#32, 0x3b316f26#32) := by decide +kernel

/-- T1.3, E0: ENCRYPT accepted; T7: ENCRYPT without a key. -/
theorem test_encrypt_accept :
    seen (fun t => (t.status, t.st)) (step (offered (keyed 0#128) 0x0002#16 katPlain)) =
      some (0x0183#16, 0x001f0e543c4e08596e221b0b4774311a#128) ∧
    seen (fun t => (t.status, t.st)) (step (offered State.reset 0x0002#16 katPlain)) =
      some (0x003c#16, 0#128) := by decide +kernel

/-- T1.3, E1 and E10: round 1 and the final round. -/
theorem test_encStep :
    seen (fun t => (t.status, t.st)) (step (ciphering 0x001f0e543c4e08596e221b0b4774311a#128 1#4)) =
      some (0x0283#16, 0x5847088b15b61cba59d4e2e8cd39dfce#128) ∧
    seen (fun t => (t.status, t.st)) (step (ciphering 0x09668b78a2d19a65f0fce6c47b3b3089#128 10#4)) =
      some (0x0006#16, 0x29c3505f571420f6402299b31a02d73a#128) := by decide +kernel

/-- T1.4, E0: DECRYPT accepted; T7: DECRYPT without a key. -/
theorem test_decrypt_accept :
    seen (fun t => (t.status, t.st))
      (step (offered (keyed 0#128) 0x0003#16 0x29c3505f571420f6402299b31a02d73a#128)) =
      some (0x09c3#16, 0x013e8ea73ab004bc8ce23d4d2133b81c#128) ∧
    seen State.status (step (offered State.reset 0x0003#16 0#128)) = some 0x003c#16 := by decide +kernel

/-- T1.4, E1 and E10: inverse round 9 and the final inverse round. -/
theorem test_decStep :
    seen (fun t => (t.status, t.st)) (step (deciphering 0x013e8ea73ab004bc8ce23d4d2133b81c#128 9#4)) =
      some (0x08c3#16, 0x338b762051667d92798febc20a3fbe67#128) ∧
    seen (fun t => (t.status, t.st)) (step (deciphering 0x632fafa2eb93c7209f92abcba0c0302b#128 0#4)) =
      some (0x0006#16, 0x54776f204f6e65204e696e652054776f#128) := by decide +kernel

/-- The first line of program P2. -/
theorem test_loadState :
    seen (fun t => (t.status, t.st)) (step (offered (keyed 0#128) 0x0004#16 katPlain)) =
      some (0x0006#16, katPlain) := by decide +kernel

/-- T4. -/
theorem test_subBytes :
    seen State.st (step (offered (keyed 0x000102030405060708090a0b0c0d0e0f#128) 0x0005#16 0#128)) =
      some 0x637c777bf26b6fc53001672bfed7ab76#128 := by decide +kernel

/-- T4. -/
theorem test_invSubBytes :
    seen State.st (step (offered (keyed 0x000102030405060708090a0b0c0d0e0f#128) 0x0006#16 0#128)) =
      some 0x52096ad53036a538bf40a39e81f3d7fb#128 := by decide +kernel

/-- T4. -/
theorem test_shiftRows :
    seen State.st (step (offered (keyed 0x000102030405060708090a0b0c0d0e0f#128) 0x0007#16 0#128)) =
      some 0x00050a0f04090e03080d02070c01060b#128 := by decide +kernel

/-- T4. -/
theorem test_invShiftRows :
    seen State.st (step (offered (keyed 0x000102030405060708090a0b0c0d0e0f#128) 0x0008#16 0#128)) =
      some 0x000d0a0704010e0b0805020f0c090603#128 := by decide +kernel

/-- T4. -/
theorem test_mixColumns :
    seen State.st (step (offered (keyed 0x000102030405060708090a0b0c0d0e0f#128) 0x0009#16 0#128)) =
      some 0x02070005060304010a0f080d0e0b0c09#128 := by decide +kernel

/-- T4. -/
theorem test_invMixColumns :
    seen State.st (step (offered (keyed 0x000102030405060708090a0b0c0d0e0f#128) 0x000A#16 0#128)) =
      some 0x0a0f080d0e0b0c090207000506030401#128 := by decide +kernel

/-- Program P2, `ARK 1`; T7: ARK 12 without a key. -/
theorem test_addRoundKey :
    seen (fun t => (t.status, t.st))
      (step (offered (keyed 0xba75f47a84a48d32e88d060e1b407d5d#128) 0x010B#16 0#128)) =
      some (0x0006#16, 0x5847088b15b61cba59d4e2e8cd39dfce#128) ∧
    seen State.status (step (offered State.reset 0x0C0B#16 0#128)) = some 0x002c#16 := by decide +kernel

/-- T2: `RDRK 10`; T7: RDRK 11 with a key. -/
theorem test_readRoundKey :
    seen (fun t => (t.status, t.aux)) (step (offered (keyed 0#128) 0x0A0C#16 0#128)) =
      some (0x0006#16, 0x28fddef86da4244accc0a4fe3b316f26#128) ∧
    seen (fun t => (t.status, t.aux)) (step (offered (keyed 0#128) 0x0B0C#16 0#128)) =
      some (0x002e#16, 0#128) := by decide +kernel

/-- T3: the upper bits of `din` are ignored. -/
theorem test_sbox :
    seen State.aux (step (offered State.reset 0x000D#16 0x0abcdef0000000000000000000000000#128)) =
      some 0x63#128 := by decide +kernel

/-- T3. -/
theorem test_invSbox : seen State.aux (step (offered State.reset 0x000E#16 0xED#128)) = some 0x53#128 := by
  decide +kernel

/-- T3: the operands are `din[15:8]` and `din[7:0]`, and the upper bits are ignored. -/
theorem test_gfMul :
    seen State.aux (step (offered State.reset 0x000F#16 0x5783#128)) = some 0xC1#128 ∧
    seen State.aux (step (offered State.reset 0x000F#16 0xffffffffffffffffffffffffffff0057#128)) =
      some 0#128 := by decide +kernel

/-- Program P4: CLR after a NO_KEY error. -/
theorem test_clearStatus :
    seen State.status
      (step (offered { State.reset with err := true, ecode := .noKey, done := true } 0x0010#16 0#128)) =
      some 0x0004#16 := by decide +kernel

/-- T7 and program P3: an illegal word, and a later error masked by the first. -/
theorem test_errors :
    seen State.status (step (offered State.reset 0x0011#16 0#128)) = some 0x001c#16 ∧
    seen State.status
      (step (offered { keyed 0#128 with err := true, ecode := .illegalCommand } 0x0B0B#16 0#128)) =
      some 0x001e#16 := by decide +kernel

/-- T8, E14: reset in the middle of an ENCRYPT, with CLEAR_STATUS offered. -/
theorem test_reset_edge :
    seen (fun t => (t.status, t.st, readWord t.w 40))
      (step { ciphering 0x43c6a9620e57c0c80908ebfe3df87f37#128 3#4 with drive := [resetting 0x0010#16] }) =
      some (0x0000#16, 0#128, 0x28fddef8#32) := by decide +kernel

/-- The spec's table words run as the first command after reset (T7, column KV = 0). -/
theorem test_withFetchWord :
    seen State.status (step (State.reset.withFetchWord 16 0x0001)) = some 0x0141#16 ∧
    seen State.status (step (State.reset.withFetchWord 16 0x000B)) = some 0x003c#16 ∧
    seen State.status (step (State.reset.withFetchWord 16 0x0010)) = some 0x0004#16 := by decide +kernel

/-! ### States that meet the hypotheses of the statements -/

/-- A well-formed instruction, an ill-formed one, and a word of each. -/
theorem test_witness_DecodeInvertsEncode :
    (Instr.addRoundKey 10#4).wf = true ∧ (Instr.addRoundKey 11#4).wf = false ∧
    decode 0x0A0B#16 = .ok (.addRoundKey 10#4) ∧ decode 0x0B0B#16 = .badIndex (.addRoundKey 11#4) := by decide

/-- A word for every clause of the decoder's result, at the ends of its range. -/
theorem test_witness_DecoderResultForEveryWord :
    rsvField 0x1C0B#16 ≠ 0#4 ∧
    (rsvField 0x0011#16 = 0#4 ∧ 0x10#8 < opField 0x0011#16) ∧
    (rsvField 0x0B0B#16 = 0#4 ∧ opField 0x0B0B#16 = 0x0B#8 ∧ 10#4 < idxField 0x0B0B#16) ∧
    (rsvField 0x0A0C#16 = 0#4 ∧ opField 0x0A0C#16 = 0x0C#8 ∧ idxField 0x0A0C#16 ≤ 10#4) ∧
    (rsvField 0x0110#16 = 0#4 ∧ opField 0x0110#16 ≤ 0x10#8 ∧ opField 0x0110#16 ≠ 0x0B#8 ∧
      opField 0x0110#16 ≠ 0x0C#8 ∧ idxField 0x0110#16 ≠ 0#4) ∧
    (rsvField 0x0010#16 = 0#4 ∧ opField 0x0010#16 ≤ 0x10#8 ∧ opField 0x0010#16 ≠ 0x0B#8 ∧
      opField 0x0010#16 ≠ 0x0C#8 ∧ idxField 0x0010#16 = 0#4) ∧
    (Accepts (offered State.reset 0x0011#16 0#128) 0x0011#16 ∧ decode 0x0011#16 = .illegal) ∧
    (Accepts (offered State.reset 0x0B0B#16 0#128) 0x0B0B#16 ∧
      decode 0x0B0B#16 = .badIndex (.addRoundKey 11#4)) := by
  unfold Accepts
  decide +kernel

/-- Two port levels with the same `rst` that differ in the rest. -/
theorem test_witness_ReadyAndDataOutputs :
    (offering 0x0001#16 0#128 katKey).rst = Ports.quiet.rst ∧ offering 0x0001#16 0#128 katKey ≠ Ports.quiet := by
  decide +kernel

/-- A state for every case of the step. -/
theorem test_witness_StepTakesTheFirstCaseThatApplies :
    ({ keyed 0#128 with drive := [resetting 0#16] } : State).ports.rst = true ∧
    ((expanding 10#4).ports.rst = false ∧ sequencerLegal (expanding 10#4).phase (expanding 10#4).rnd = true ∧
      (expanding 10#4).phase = .kexp) ∧
    ((ciphering 0#128 10#4).ports.rst = false ∧
      sequencerLegal (ciphering 0#128 10#4).phase (ciphering 0#128 10#4).rnd = true ∧
      (ciphering 0#128 10#4).phase = .enc) ∧
    ((deciphering 0#128 0#4).ports.rst = false ∧
      sequencerLegal (deciphering 0#128 0#4).phase (deciphering 0#128 0#4).rnd = true ∧
      (deciphering 0#128 0#4).phase = .dec) ∧
    ((offered State.reset 0#16 0#128).ports.rst = false ∧ (offered State.reset 0#16 0#128).phase = .idle ∧
      sequencerLegal (offered State.reset 0#16 0#128).phase (offered State.reset 0#16 0#128).rnd = true ∧
      (offered State.reset 0#16 0#128).ports.cmdValid = true) ∧
    (State.reset.ports.rst = false ∧ State.reset.phase = .idle ∧
      sequencerLegal State.reset.phase State.reset.rnd = true ∧ State.reset.ports.cmdValid = false) := by
  decide +kernel

/-- Accepted words that decode to a command, with and without a bad index. -/
theorem test_witness_StepRunsTheDecodedCommand :
    (Accepts (offered (keyed 0#128) 0x0A0B#16 0#128) 0x0A0B#16 ∧ decode 0x0A0B#16 = .ok (.addRoundKey 10#4)) ∧
    (Accepts (offered (keyed 0#128) 0x0F0C#16 0#128) 0x0F0C#16 ∧
      decode 0x0F0C#16 = .badIndex (.readRoundKey 15#4)) := by
  unfold Accepts
  decide +kernel

theorem test_witness_IdleEdgeKeepsEveryRegister :
    (keyed 0#128).ports.rst = false ∧ (keyed 0#128).phase = .idle ∧ (keyed 0#128).rnd = 0#4 ∧
    (keyed 0#128).ports.cmdValid = false := by decide +kernel

/-- A reset edge, a busy edge and the two idle edges, with port levels that differ in the rest. -/
theorem test_witness_PortsAreReadOnlyAtAnAcceptEdge :
    ((resetting 0x0010#16).rst = (resetting 0x0002#16).rst ∧ (resetting 0x0010#16).rst = true) ∧
    ((offering 0x0001#16 0#128 katKey).rst = Ports.quiet.rst ∧ (ciphering 0#128 1#4).phase ≠ .idle) ∧
    (Ports.quiet.rst = false ∧ (keyed 0#128).phase = .idle ∧ (keyed 0#128).rnd = 0#4 ∧
      Ports.quiet.cmdValid = false) ∧
    ((offering 0x0001#16 0#128 katKey).rst = false ∧ (offering 0x0001#16 0#128 katKey).cmdValid = true) := by
  decide +kernel

/-- A reset edge in the middle of an ENCRYPT, after which `rst` falls. -/
theorem test_witness_ResetEdgeValues :
    ({ ciphering 0#128 3#4 with drive := [resetting 0x0010#16] } : State).ports.rst = true ∧
    ∃ t, step { ciphering 0#128 3#4 with drive := [resetting 0x0010#16] } = .next t ∧ t.ports.rst = false :=
  ⟨rfl, _, rfl, rfl⟩

theorem test_witness_CommandHeldThroughResetIsAcceptedAfterIt :
    ({ ciphering 0#128 3#4 with drive := [resetting 0x0002#16, offering 0x0002#16 0#128 0#128] } : State).drive =
      [resetting 0x0002#16, offering 0x0002#16 0#128 0#128] ∧
    (resetting 0x0002#16).rst = true ∧ (offering 0x0002#16 0#128 0#128).rst = false ∧
    (offering 0x0002#16 0#128 0#128).cmdValid = true := ⟨rfl, rfl, rfl, rfl⟩

/-- The pairs next to the ranges of R35 on the outside, and the ends of the ranges. -/
theorem test_witness_OnlyStatesOutsideTheInvariantFault :
    sequencerLegal .idle 1#4 = false ∧ sequencerLegal .kexp 0#4 = false ∧ sequencerLegal .kexp 11#4 = false ∧
    sequencerLegal .enc 0#4 = false ∧ sequencerLegal .enc 11#4 = false ∧ sequencerLegal .dec 10#4 = false ∧
    State.reset.ports.rst = false ∧
    sequencerLegal .idle 0#4 = true ∧ sequencerLegal .kexp 1#4 = true ∧ sequencerLegal .kexp 10#4 = true ∧
    sequencerLegal .enc 1#4 = true ∧ sequencerLegal .enc 10#4 = true ∧ sequencerLegal .dec 0#4 = true ∧
    sequencerLegal .dec 9#4 = true ∧ (resetting 0#16).rst = true := by decide +kernel

/-- The expansion of the key of T1 has the key in its first four words. -/
theorem test_katKey : roundKey (keyExpansion katKey) 0 = katKey := by decide +kernel

theorem test_schedule : keyExpansion katKey = keyExpansion (roundKey (keyExpansion katKey) 0) := by rw [test_katKey]

theorem inv_keyed (v : Block) : Inv (keyed v) :=
  ⟨rfl, fun h => (by cases h), fun _ => rfl, fun h => absurd rfl h, ⟨fun h => (by cases h), fun h => absurd rfl h⟩,
    fun _ => test_schedule⟩

theorem inv_expanding (r : Nibble) (h : sequencerLegal .kexp r = true) : Inv (expanding r) := by
  refine ⟨h, fun _ => ⟨rfl, fun i _ => ?_⟩, fun h => ?_, fun _ => rfl, ⟨fun h => (by cases h), fun h => absurd rfl h⟩,
    fun h => (by cases h)⟩
  · exact congrArg (fun w => readWord w i) test_schedule
  · rcases h with h | h <;> cases h

/-- States with the invariant: idle with a key, expanding a key, in a cipher. -/
theorem test_witness_EveryStepKeepsTheInvariant :
    Inv (keyed 0#128) ∧ Inv (expanding 1#4) ∧ Inv (expanding 10#4) ∧ Inv (ciphering 0#128 10#4) :=
  ⟨inv_keyed _, inv_expanding _ rfl, inv_expanding _ rfl,
    ⟨rfl, fun h => (by cases h), fun _ => rfl, fun _ => rfl, ⟨fun h => (by cases h), fun h => absurd rfl h⟩,
      fun _ => test_schedule⟩⟩

theorem test_witness_InvariantHoldsAfterReset :
    ({ ciphering 0#128 11#4 with drive := [resetting 0#16] } : State).ports.rst = true := rfl

/-- Steps that change ST by a command, by a round and by a reset. -/
theorem test_witness_WritersOfTheStateRegister :
    (∃ t, step (offered State.reset 0x0004#16 katPlain) = .next t ∧ t.st ≠ State.reset.st) ∧
    (∃ t, step (ciphering 0#128 1#4) = .next t ∧ t.st ≠ (ciphering 0#128 1#4).st) ∧
    (∃ t, step { keyed katPlain with drive := [resetting 0#16] } = .next t ∧ t.st ≠ katPlain ∧
      ({ keyed katPlain with drive := [resetting 0#16] } : State).ports.rst = true) :=
  ⟨⟨_, rfl, by decide +kernel⟩, ⟨_, rfl, by decide +kernel⟩, ⟨_, rfl, by decide +kernel, rfl⟩⟩

/-- A step that changes AUX by a byte result, and one by a reset. -/
theorem test_witness_WritersOfTheResultRegister :
    (Accepts (offered State.reset 0x000D#16 0x53#128) (encode .sbox) ∧
      ∃ t, step (offered State.reset 0x000D#16 0x53#128) = .next t ∧ t.aux ≠ State.reset.aux) ∧
    ({ State.reset with aux := 1#128, drive := [resetting 0#16] } : State).ports.rst = true := by
  refine ⟨⟨?_, _, rfl, by decide +kernel⟩, rfl⟩
  unfold Accepts
  decide +kernel

/-- Steps that change a word of W: the accept of LOAD_KEY and a KEXP step. -/
theorem test_witness_WritersOfTheRoundKeyStore :
    (∃ t, step { State.reset with drive := [offering 0x0001#16 0#128 katKey] } = .next t ∧
      readWord t.w 3 ≠ readWord State.reset.w 3) ∧
    (∃ t, step { State.reset with phase := .kexp, rnd := 10#4 } = .next t ∧
      readWord t.w 43 ≠ readWord State.reset.w 43) :=
  ⟨⟨_, rfl, by decide +kernel⟩, ⟨_, rfl, by decide +kernel⟩⟩

/-- A state for every clause about KV: a key accepted, a new key in W, the final KEXP step, a reset. -/
theorem test_witness_KeyValidFlagFollowsTheSchedule :
    (Inv (keyed 0#128) ∧ ∃ t, step (keyed 0#128) = .next t ∧ t.kv = true) ∧
    (Accepts { State.reset with drive := [offering 0x0001#16 0#128 katKey] } 0x0001#16 ∧
      ∃ t, step { State.reset with drive := [offering 0x0001#16 0#128 katKey] } = .next t ∧
        roundKey t.w 0 ≠ roundKey State.reset.w 0) ∧
    (Inv (expanding 10#4) ∧ (expanding 10#4).ports.rst = false ∧ (expanding 10#4).phase = .kexp ∧
      (expanding 10#4).rnd = 10#4 ∧ ∃ t, step (expanding 10#4) = .next t ∧ t.kv ≠ (expanding 10#4).kv) ∧
    ({ keyed 0#128 with drive := [resetting 0#16] } : State).ports.rst = true := by
  refine ⟨⟨inv_keyed _, _, rfl, rfl⟩, ⟨?_, _, rfl, by decide +kernel⟩,
    ⟨inv_expanding _ rfl, rfl, rfl, rfl, _, rfl, by decide⟩, rfl⟩
  unfold Accepts
  decide +kernel

/-- The fields of a word for each error, and for no error. -/
theorem test_witness_AcceptedWordRecordsItsFirstError :
    Accepts (offered State.reset 0x1C0B#16 0#128) 0x1C0B#16 ∧
    errorCause 0x1C0B#16 State.reset.kv = some .illegalCommand ∧
    Accepts (offered State.reset 0x0B0C#16 0#128) 0x0B0C#16 ∧
    errorCause 0x0B0C#16 State.reset.kv = some .badRoundIndex ∧
    Accepts (offered State.reset 0x0002#16 0#128) 0x0002#16 ∧ errorCause 0x0002#16 State.reset.kv = some .noKey ∧
    errorCause 0x0002#16 (keyed 0#128).kv = none ∧ Accepts (offered (keyed 0#128) 0x0002#16 0#128) 0x0002#16 := by
  unfold Accepts
  decide +kernel

/-- A step that lowers ERR. -/
theorem test_witness_ErrorsNeitherClearThemselvesNorDisable :
    ∃ t, step (offered { State.reset with err := true, ecode := .noKey } 0x0010#16 0#128) = .next t ∧
      t.err = false := ⟨_, rfl, rfl⟩

/-- A single-cycle accept, a multi-cycle accept, a reset, a final step, an unfinished step, a quiet idle edge. -/
theorem test_witness_DoneFlagAtEveryEdge :
    (Accepts (offered State.reset 0x0000#16 0#128) 0x0000#16 ∧ busyEdgesOf 0x0000#16 State.reset.kv = 0) ∧
    (Accepts (offered State.reset 0x0001#16 0#128) 0x0001#16 ∧ busyEdgesOf 0x0001#16 State.reset.kv ≠ 0) ∧
    ({ keyed 0#128 with drive := [resetting 0#16] } : State).ports.rst = true ∧
    ((deciphering 0#128 0#4).ports.rst = false ∧ (deciphering 0#128 0#4).phase = .dec ∧
      (deciphering 0#128 0#4).rnd = 0#4 ∧ ∃ t, step (deciphering 0#128 0#4) = .next t) ∧
    ((expanding 9#4).phase = .kexp ∧ (expanding 9#4).rnd ≠ 10#4 ∧ ∃ t, step (expanding 9#4) = .next t) ∧
    ((keyed 0#128).phase = .idle ∧ (keyed 0#128).ports.cmdValid = false ∧ ∃ t, step (keyed 0#128) = .next t) := by
  refine ⟨?_, ?_, rfl, ⟨rfl, rfl, rfl, _, rfl⟩, ⟨rfl, by decide, _, rfl⟩, rfl, rfl, _, rfl⟩
  · unfold Accepts
    decide +kernel
  · unfold Accepts
    decide +kernel

/-- An error recorded, a CLEAR_STATUS accepted, a reset, each changing the flags. -/
theorem test_witness_ErrorFlagsChangeInThreeWays :
    (Accepts (offered State.reset 0x0011#16 0#128) 0x0011#16 ∧
      errorCause 0x0011#16 State.reset.kv = some .illegalCommand ∧
      ∃ t, step (offered State.reset 0x0011#16 0#128) = .next t ∧ t.err ≠ State.reset.err) ∧
    Accepts (offered { State.reset with err := true, ecode := .noKey } 0x0010#16 0#128) 0x0010#16 ∧
    ({ State.reset with err := true, ecode := .noKey, drive := [resetting 0#16] } : State).ports.rst = true := by
  refine ⟨⟨?_, rfl, _, rfl, by decide⟩, ?_, rfl⟩
  · unfold Accepts
    decide +kernel
  · unfold Accepts
    decide +kernel

/-- Edges that move PHASE: the three accepts, the final steps, a reset. -/
theorem test_witness_PhaseMovesOnlyAtAcceptFinalStepAndReset :
    Accepts (offered State.reset 0x0001#16 0#128) 0x0001#16 ∧
    (Accepts (offered (keyed 0#128) 0x0002#16 0#128) 0x0002#16 ∧ (keyed 0#128).kv = true) ∧
    (Accepts (offered (keyed 0#128) 0x0003#16 0#128) 0x0003#16 ∧ (keyed 0#128).kv = true) ∧
    ((ciphering 0#128 10#4).ports.rst = false ∧ (ciphering 0#128 10#4).phase = .enc ∧
      (ciphering 0#128 10#4).rnd = 10#4 ∧
      ∃ t, step (ciphering 0#128 10#4) = .next t ∧ t.phase ≠ (ciphering 0#128 10#4).phase) ∧
    ({ expanding 5#4 with drive := [resetting 0#16] } : State).ports.rst = true := by
  refine ⟨?_, ?_, ?_, ⟨rfl, rfl, rfl, _, rfl, by decide⟩, rfl⟩
  · unfold Accepts
    decide +kernel
  · unfold Accepts
    decide +kernel
  · unfold Accepts
    decide +kernel

theorem accepts_keyed (c : Cmd) (din : Block) : Accepts (offered (keyed 0#128) c din) c := ⟨rfl, rfl, rfl, rfl⟩

theorem accepts_reset (c : Cmd) (din : Block) : Accepts (offered State.reset c din) c := ⟨rfl, rfl, rfl, rfl⟩

theorem keyIn_offered (s : State) (c : Cmd) (din : Block) : (offered s c din).ports.keyIn = 0#128 := rfl

theorem noReset_offered (n : Nat) (s : State) (c : Cmd) (din : Block) : NoReset n (offered s c din) := by
  intro p hp
  have h : p ∈ [offering c din 0#128] := List.mem_of_mem_take hp
  rw [List.mem_singleton] at h
  rw [h]; rfl

/-- A nonzero byte with an inverse (T3). -/
theorem test_witness_GfmulFieldLaws : (0x8D#8 : Byte) ≠ 0#8 ∧ gfmul 0x8D#8 0x02#8 = 0x01#8 := by decide

/-- Word indices at the ends of the ranges: 0 and 3, 4 and 43; round keys 1 and 10. -/
theorem test_witness_KeyExpansionRecurrence : (3 < 4) ∧ (4 ≤ 4 ∧ 4 ≤ 43) ∧ (4 ≤ 43 ∧ 43 ≤ 43) ∧ (1 ≤ 10 ∧ 10 ≤ 10) ∧
    readWord (keyExpansion katKey) 3 = 0x67204675#32 ∧ readWord (keyExpansion katKey) 4 = 0xe232fcf1#32 ∧
    readWord (keyExpansion katKey) 43 = 0x3b316f26#32 := by decide +kernel

/-- The same indices for the form by round keys (T1.1). -/
theorem test_witness_KeyExpansionByRoundKeys : (1 ≤ 1 ∧ 1 ≤ 10) ∧ (1 ≤ 10 ∧ 10 ≤ 10) ∧
    readWord (keyExpansion katKey) 40 = 0x28fddef8#32 := by decide +kernel

theorem test_witness_WordOperationsOfTheSchedule : (1 ≤ 1 ∧ 1 ≤ 9) ∧ (1 ≤ 9 ∧ 9 ≤ 9) ∧ rc 10 = 0x36#8 := by decide

/-- LOAD_KEY accepted in a state that holds another key, with no reset coming. -/
theorem test_witness_LoadKeyCommand :
    Accepts (offered (keyed 0#128) 0x0001#16 0#128) 0x0001#16 ∧
    NoReset 11 (offered (keyed 0#128) 0x0001#16 0#128) :=
  ⟨accepts_keyed _ _, noReset_offered _ _ _ _⟩

/-- The first and the last KEXP step, with the invariant. -/
theorem test_witness_KexpStepWritesOneRoundKey :
    ((expanding 1#4).ports.rst = false ∧ (expanding 1#4).phase = .kexp ∧ 1 ≤ (expanding 1#4).rnd.toNat ∧
      (expanding 1#4).rnd.toNat ≤ 10) ∧
    ((expanding 10#4).ports.rst = false ∧ (expanding 10#4).phase = .kexp ∧ 1 ≤ (expanding 10#4).rnd.toNat ∧
      (expanding 10#4).rnd.toNat ≤ 10 ∧ Inv (expanding 10#4)) :=
  ⟨⟨rfl, rfl, by decide, by decide⟩, rfl, rfl, by decide, by decide, inv_expanding _ rfl⟩

/-- An index of each kind: 0 and 10 with and without a key, 11 and 15. -/
theorem test_witness_ReadRoundKeyCommand :
    (10 < (11#4 : Nibble).toNat ∧ 10 < (15#4 : Nibble).toNat) ∧
    ((10#4 : Nibble).toNat ≤ 10 ∧ State.reset.kv = false) ∧ ((0#4 : Nibble).toNat ≤ 10 ∧ (keyed 0#128).kv = true) := by
  decide +kernel

/-- The same indices serve ADD_ROUND_KEY. -/
theorem test_witness_AddRoundKeyCommand :
    (10 < (11#4 : Nibble).toNat) ∧ ((0#4 : Nibble).toNat ≤ 10 ∧ State.reset.kv = false) ∧
    ((10#4 : Nibble).toNat ≤ 10 ∧ (keyed 0#128).kv = true) := by
  decide +kernel

/-- A state with a valid key and the invariant, whose step answers, also one that accepts LOAD_KEY. -/
theorem test_witness_ScheduleIsImmutableWhileKeyValid :
    Inv (keyed 0#128) ∧ (keyed 0#128).kv = true ∧ (∃ t, step (keyed 0#128) = .next t) ∧
    ∃ t, step (offered (keyed 0#128) 0x0001#16 0#128) = .next t :=
  ⟨inv_keyed _, rfl, ⟨_, rfl⟩, _, rfl⟩

/-- Two states after reset that differ in every word of W. -/
theorem test_witness_UnspecifiedStoreWordsNeverShow :
    Inv State.reset ∧ Inv { State.reset with w := Vector.replicate 44 0xFFFFFFFF#32 } ∧
    State.reset.w ≠ Vector.replicate 44 0xFFFFFFFF#32 ∧ State.reset.kv = false ∧ State.reset.phase ≠ .kexp := by
  refine ⟨⟨rfl, fun h => (by cases h), fun h => ?_, fun h => absurd rfl h,
      ⟨fun h => (by cases h), fun h => absurd rfl h⟩, fun h => (by cases h)⟩,
    ⟨rfl, fun h => (by cases h), fun h => ?_, fun h => absurd rfl h,
      ⟨fun h => (by cases h), fun h => absurd rfl h⟩, fun h => (by cases h)⟩,
    by decide +kernel, rfl, by decide⟩
  all_goals rcases h with h | h <;> cases h

/-- Two different states that accept LOAD_KEY with the same key. -/
theorem test_witness_ScheduleDependsOnTheKeyAlone :
    Accepts (offered State.reset 0x0001#16 0#128) 0x0001#16 ∧
    Accepts (offered (keyed 0#128) 0x0001#16 katPlain) 0x0001#16 ∧
    (offered State.reset 0x0001#16 0#128).ports.keyIn = (offered (keyed 0#128) 0x0001#16 katPlain).ports.keyIn ∧
    NoReset 11 (offered State.reset 0x0001#16 0#128) ∧ NoReset 11 (offered (keyed 0#128) 0x0001#16 katPlain) :=
  ⟨accepts_reset _ _, accepts_keyed _ _, by rw [keyIn_offered, keyIn_offered], noReset_offered _ _ _ _,
    noReset_offered _ _ _ _⟩

/-- Byte and cell indices at the ends of their ranges, and a block with four equal columns. -/
theorem test_witness_ShiftRowsCommands :
    let v : Block := 0x01020304010203040102030401020304#128
    (0 < 16 ∧ 15 < 16) ∧ (0 < 4 ∧ 3 < 4) ∧ col v 0 = col v 1 ∧ col v 1 = col v 2 ∧ col v 2 = col v 3 := by
  decide +kernel

/-- The index range of the bytes. -/
theorem test_witness_SubBytesCommands : (0 < 16 ∧ 15 < 16) ∧
    byte 0x000102030405060708090a0b0c0d0e0f#128 15 = 0x0f#8 := by decide +kernel

/-- A block each of whose columns has four equal bytes (T4). -/
theorem test_witness_MixColumnsCommands : ∀ c, c < 4 →
    cell 0x01010101c6c6c6c600000000ffffffff#128 0 c = cell 0x01010101c6c6c6c600000000ffffffff#128 1 c ∧
    cell 0x01010101c6c6c6c600000000ffffffff#128 1 c = cell 0x01010101c6c6c6c600000000ffffffff#128 2 c ∧
    cell 0x01010101c6c6c6c600000000ffffffff#128 2 c = cell 0x01010101c6c6c6c600000000ffffffff#128 3 c := by
  decide +kernel

/-- ENCRYPT accepted with a key, with no reset coming; and a state without a key. -/
theorem test_witness_EncryptCommand :
    (Accepts (offered (keyed 0#128) 0x0002#16 katPlain) 0x0002#16 ∧ (keyed 0#128).kv = true ∧
      NoReset 11 (offered (keyed 0#128) 0x0002#16 katPlain)) ∧ State.reset.kv = false :=
  ⟨⟨accepts_keyed _ _, rfl, noReset_offered _ _ _ _⟩, rfl⟩

/-- DECRYPT accepted with a key, with no reset coming; and a state without a key. -/
theorem test_witness_DecryptCommand :
    (Accepts (offered (keyed 0#128) 0x0003#16 katPlain) 0x0003#16 ∧ (keyed 0#128).kv = true ∧
      NoReset 11 (offered (keyed 0#128) 0x0003#16 katPlain)) ∧ State.reset.kv = false :=
  ⟨⟨accepts_keyed _ _, rfl, noReset_offered _ _ _ _⟩, rfl⟩

/-- The first, the ninth and the last round. -/
theorem test_witness_EncStepPerformsOneRound : ∀ r ∈ [1#4, 9#4, 10#4],
    (ciphering 0#128 r).ports.rst = false ∧ (ciphering 0#128 r).phase = .enc ∧
    1 ≤ (ciphering 0#128 r).rnd.toNat ∧ (ciphering 0#128 r).rnd.toNat ≤ 10 := by
  decide +kernel

/-- The first, the ninth and the last inverse round. -/
theorem test_witness_DecStepPerformsOneInverseRound : ∀ r ∈ [9#4, 1#4, 0#4],
    (deciphering 0#128 r).ports.rst = false ∧ (deciphering 0#128 r).phase = .dec ∧
    (deciphering 0#128 r).rnd.toNat ≤ 9 := by
  decide +kernel

/-- Both directions accepted with a key and no reset coming, for the first boundary and the ninth. -/
theorem test_witness_RoundBoundariesOfBothDirections :
    Accepts (offered (keyed 0#128) 0x0002#16 katPlain) 0x0002#16 ∧
    Accepts (offered (keyed 0#128) 0x0003#16 katPlain) 0x0003#16 ∧ (keyed 0#128).kv = true ∧
    NoReset (0 + 1) (offered (keyed 0#128) 0x0002#16 katPlain) ∧
    NoReset (9 + 1) (offered (keyed 0#128) 0x0003#16 katPlain) ∧ 9 ≤ 9 :=
  ⟨accepts_keyed _ _, accepts_keyed _ _, rfl, noReset_offered _ _ _ _, noReset_offered _ _ _ _, Nat.le_refl 9⟩

/-- Two states with the same (PHASE, RND), in each direction, that differ in ST. -/
theorem test_witness_SequencerReadsOnlyItsCounter :
    ((ciphering 0#128 10#4).ports.rst = false ∧ (ciphering katPlain 10#4).ports.rst = false ∧
      (ciphering 0#128 10#4).phase = .enc ∧
      sequencerLegal (ciphering 0#128 10#4).phase (ciphering 0#128 10#4).rnd = true ∧
      (ciphering katPlain 10#4).phase = (ciphering 0#128 10#4).phase ∧
      (ciphering katPlain 10#4).rnd = (ciphering 0#128 10#4).rnd) ∧
    ((deciphering 0#128 0#4).phase = .dec ∧
      sequencerLegal (deciphering 0#128 0#4).phase (deciphering 0#128 0#4).rnd = true) :=
  ⟨⟨rfl, rfl, rfl, rfl, rfl, rfl⟩, rfl, rfl⟩

/-- The states of the two stepwise runs. -/
theorem test_witness_StepwiseCommandsEqualTheSequencer :
    (Accepts (offered (keyed 0#128) 0x0002#16 katPlain) 0x0002#16 ∧ (keyed 0#128).kv = true ∧
      NoReset 11 (offered (keyed 0#128) 0x0002#16 katPlain)) ∧
    (Accepts (offered (keyed 0#128) 0x0003#16 katPlain) 0x0003#16 ∧
      NoReset 11 (offered (keyed 0#128) 0x0003#16 katPlain)) :=
  ⟨⟨accepts_keyed _ _, rfl, noReset_offered _ _ _ _⟩, accepts_keyed _ _, noReset_offered _ _ _ _⟩

theorem test_witness_LoadStateCommand : Accepts (offered (keyed 0#128) 0x0004#16 katPlain) 0x0004#16 :=
  accepts_keyed _ _

/-- An ill-formed CLEAR_STATUS accepted; a state with no error; a CLEAR_STATUS that lowers ERR. -/
theorem test_witness_ClearStatusCommand :
    Accepts (offered (keyed 0#128) 0x0110#16 0#128) 0x0110#16 ∧ (keyed 0#128).err = false ∧
    (keyed 0#128).ecode = .noError ∧
    ∃ t, exec .clearStatus { keyed 0#128 with err := true, ecode := .noKey } = .next t ∧ t.err = false :=
  ⟨accepts_keyed _ _, rfl, rfl, _, rfl, rfl⟩

/-- A word with no busy edge and a word with ten, accepted with no reset coming. -/
theorem test_witness_BusyEdgesOfEveryCommand :
    (Accepts (offered (keyed 0#128) 0x0011#16 0#128) 0x0011#16 ∧ busyEdgesOf 0x0011#16 true = 0 ∧
      NoReset (0 + 1) (offered (keyed 0#128) 0x0011#16 0#128)) ∧
    (Accepts (offered (keyed 0#128) 0x0002#16 katPlain) 0x0002#16 ∧ busyEdgesOf 0x0002#16 true = 10 ∧
      NoReset (10 + 1) (offered (keyed 0#128) 0x0002#16 katPlain)) :=
  ⟨⟨accepts_keyed _ _, by decide, noReset_offered _ _ _ _⟩, accepts_keyed _ _, by decide, noReset_offered _ _ _ _⟩

end Sys2Proof.Tests
end

section
/-! SUPPORT. The family of 10_state.md: the outputs, the cases of the step, who writes which register, and the error
of an accepted word. `EdgeCase` says once what an edge can do and `Performed` what a command can do at its accept edge;
the statements about writers are case splits on the two. -/

/-! ### The decoder, the encoder and the errors of a command word (R43, R84, R242, R243) -/

namespace Sys2Proof

/-- The opcodes that use IDX, as values (R80). -/
theorem indexedOp_iff (op : Byte) : indexedOp op = true ↔ op = 0x0B#8 ∨ op = 0x0C#8 := by
  simp [indexedOp]

/-- The words that R84 rejects as ILLEGAL, by their fields. -/
theorem decode_eq_illegal_iff (c : Cmd) :
    decode c = .illegal ↔
      rsvField c ≠ 0#4 ∨ 0x10#8 < opField c ∨ (¬ indexedOp (opField c) = true ∧ idxField c ≠ 0#4) := by
  rw [← commandOf_eq_none (opField c) (idxField c), decode]
  by_cases hr : rsvField c = 0#4
  swap
  · simp [hr]
  cases hc : commandOf (opField c) (idxField c) with
  | none => simp [hr]
  | some i =>
    simp only [hr, ne_eq, not_true_eq_false, if_false, reduceCtorEq, false_or]
    split_ifs with hx hl hn <;> simp [*]

/-- A word that decodes to a command, its index in range or not, is that command's word. -/
theorem encode_of_decode (c : Cmd) (i : Instr) (h : decode c = .ok i ∨ decode c = .badIndex i) : encode i = c := by
  obtain ⟨hr, -, hx⟩ : rsvField c = 0#4 ∧ ¬ 0x10#8 < opField c ∧
      ¬ (¬ indexedOp (opField c) = true ∧ idxField c ≠ 0#4) := by
    have hi : ¬ decode c = .illegal := by intro hi; simp [hi] at h
    simpa only [decode_eq_illegal_iff, not_or, ne_eq, not_not] using hi
  have hc : commandOf (opField c) (idxField c) = some i := by
    unfold decode at h
    rw [if_neg (by simpa using hr)] at h
    cases hc : commandOf (opField c) (idxField c) with
    | none => simp [hc] at h
    | some j =>
      simp only [hc] at h
      split_ifs at h <;> simp_all
  obtain ⟨ho, hi⟩ := (commandOf_eq_some _ _ _).1 hc
  have hi : i.index = idxField c := by
    rw [hi]
    split_ifs with h'
    · rfl
    · exact (not_not.1 fun hn => hx ⟨h', hn⟩).symm
  calc encode i = 0#4 ++ i.index ++ i.opcode := rfl
    _ = rsvField c ++ idxField c ++ opField c := by rw [hr, hi, ho]
    _ = c := word_eq_fields c

/-- The word of a command decodes to it, with its index in range or not (R84). -/
theorem decode_encode (i : Instr) : decode (encode i) = if i.wf then .ok i else .badIndex i := by
  have hc : commandOf i.opcode i.index = some i :=
    (commandOf_eq_some _ _ _).2 ⟨rfl, by
      split_ifs with hx
      · rfl
      · exact index_of_not_indexedOp i (by simpa using hx)⟩
  rw [decode, rsvField_encode, idxField_encode, opField_encode, hc, wf_eq]
  cases hx : indexedOp i.opcode with
  | true => simp
  | false => simp [index_of_not_indexedOp i hx]

theorem decode_encode_or (i : Instr) : decode (encode i) = .ok i ∨ decode (encode i) = .badIndex i := by
  rw [decode_encode]
  split_ifs
  · exact .inl rfl
  · exact .inr rfl

/-- Every word is illegal or the word of a command. -/
theorem illegal_or_encode (c : Cmd) : decode c = .illegal ∨ ∃ i, encode i = c := by
  cases h : decode c with
  | illegal => exact .inl rfl
  | badIndex i => exact .inr ⟨i, encode_of_decode c i (.inr h)⟩
  | ok i => exact .inr ⟨i, encode_of_decode c i (.inl h)⟩

theorem encode_injective {i j : Instr} (h : encode i = encode j) : i = j := by
  have hd := decode_encode i
  rw [h, decode_encode j] at hd
  split_ifs at hd <;> simp_all

/-- The commands that read W when they are accepted, which need a valid key (R62, R242). -/
def Instr.readsKey : Instr → Bool
  | .encrypt | .decrypt | .addRoundKey _ | .readRoundKey _ => true
  | _ => false

namespace Machine

/-- The error a command raises itself: BAD_ROUND_INDEX before NO_KEY (R242, R243). `errorCause_encode` ties it to the
command's word, `exec_of_commandError` and `exec_performed` to its meaning. -/
def commandError (i : Instr) (kv : Bool) : Option ErrorCode :=
  if i.wf then if i.readsKey && !kv then some .noKey else none else some .badRoundIndex

theorem errorCause_of_illegal (c : Cmd) (kv : Bool) (h : decode c = .illegal) :
    errorCause c kv = some .illegalCommand := by
  rw [decode_eq_illegal_iff, indexedOp_iff] at h
  exact if_pos h

theorem errorCause_encode (i : Instr) (kv : Bool) : errorCause (encode i) kv = commandError i kv := by
  cases i with
  | addRoundKey idx => revert idx kv; decide
  | readRoundKey idx => revert idx kv; decide
  | _ => revert kv; decide

/-- A word raises no error exactly when it is the word of a command that raises none. -/
theorem errorCause_eq_none (c : Cmd) (kv : Bool) (h : errorCause c kv = none) :
    ∃ i, encode i = c ∧ decode c = .ok i ∧ commandError i kv = none := by
  obtain hd | ⟨i, rfl⟩ := illegal_or_encode c
  · rw [errorCause_of_illegal c kv hd] at h
    cases h
  rw [errorCause_encode] at h
  refine ⟨i, rfl, ?_, h⟩
  rw [decode_encode, if_pos]
  by_contra hw
  simp [commandError, hw] at h

/-! ### What a command does at its accept edge -/

/-- The phase that a multi-cycle command starts (R31); none for a single-cycle command. -/
def startedPhase : Instr → Option Phase
  | .loadKey => some .kexp
  | .encrypt => some .enc
  | .decrypt => some .dec
  | _ => none

/-- What the meaning of a command that raises no error can make of the registers, by the kind of the command: which
registers it writes, and how it ends. The values are left open where no statement about writers needs them. -/
inductive Performed (s : State) : Instr → State → Prop
  /-- NOP (R220). -/
  | nop : Performed s .nop s.complete
  /-- CLEAR_STATUS (R222). -/
  | clearStatus : Performed s .clearStatus s.clearError.complete
  /-- LOAD_STATE and the seven single-stage transforms (R24). -/
  | writeSt (i : Instr) (v : Block)
      (h : i ∈ [.loadState, .subBytes, .invSubBytes, .shiftRows, .invShiftRows, .mixColumns, .invMixColumns] ∨
        ∃ r, i = .addRoundKey r) : Performed s i (s.writeSt v).complete
  /-- SBOX, INV_SBOX and GF_MUL (R25). -/
  | byteResult (i : Instr) (b : Byte) (h : i ∈ [.sbox, .invSbox, .gfMul]) :
      Performed s i (s.writeAux (zextByte b)).complete
  /-- READ_ROUND_KEY (R143). -/
  | readRoundKey (r : Nibble) (v : Block) : Performed s (.readRoundKey r) (s.writeAux v).complete
  /-- LOAD_KEY (R140). -/
  | loadKey : Performed s .loadKey
      (((s.writeStore (writeKeyWords s.w s.ports.keyIn)).writeKv false).startSequence .kexp 1#4)
  /-- ENCRYPT (R198). -/
  | encrypt (v : Block) (hk : s.kv = true) : Performed s .encrypt ((s.writeSt v).startSequence .enc 1#4)
  /-- DECRYPT (R200). -/
  | decrypt (v : Block) (hk : s.kv = true) : Performed s .decrypt ((s.writeSt v).startSequence .dec 9#4)

theorem commandError_badIndex (idx : Nibble) (kv : Bool) (h : 10 < idx.toNat) :
    commandError (.addRoundKey idx) kv = some .badRoundIndex :=
  if_neg fun hw => absurd ((legalIndex_iff idx).1 hw) (by omega)

theorem commandError_legalIndex (idx : Nibble) (kv : Bool) (h : idx.toNat ≤ 10) :
    commandError (.addRoundKey idx) kv = commandError .encrypt kv :=
  if_pos ((legalIndex_iff idx).2 h)

theorem commandError_encrypt_some (kv : Bool) (e : ErrorCode) (h : commandError .encrypt kv = some e) :
    kv = false ∧ e = .noKey := by
  cases kv <;> cases h
  exact ⟨rfl, rfl⟩

theorem commandError_encrypt_none (kv : Bool) (h : commandError .encrypt kv = none) : kv = true := by
  cases kv <;> cases h
  rfl

theorem requireKey_of_error (s t : State) (e : ErrorCode) (h : commandError .encrypt s.kv = some e) :
    s.requireKey t = s.recordError e := by
  obtain ⟨hk, rfl⟩ := commandError_encrypt_some _ _ h
  exact requireKey_missing s t hk

theorem requireIndexAndKey_of_error (s t : State) (idx : Nibble) (e : ErrorCode)
    (h : commandError (.addRoundKey idx) s.kv = some e) : s.requireIndexAndKey idx t = s.recordError e := by
  obtain hi | hi := Nat.lt_or_ge 10 idx.toNat
  · cases (commandError_badIndex idx s.kv hi).symm.trans h
    exact requireIndexAndKey_badIndex s t idx hi
  · rw [commandError_legalIndex idx s.kv hi] at h
    obtain ⟨hk, rfl⟩ := commandError_encrypt_some _ _ h
    exact requireIndexAndKey_missing s t idx hi hk

theorem requireIndexAndKey_of_noError (s t : State) (idx : Nibble)
    (h : commandError (.addRoundKey idx) s.kv = none) : s.requireIndexAndKey idx t = t := by
  obtain hi | hi := Nat.lt_or_ge 10 idx.toNat
  · cases (commandError_badIndex idx s.kv hi).symm.trans h
  · rw [commandError_legalIndex idx s.kv hi] at h
    exact requireIndexAndKey_valid s t idx hi (commandError_encrypt_none _ h)

/-- A command that raises an error only records it (R244, R245). -/
theorem exec_of_commandError (i : Instr) (s : State) (e : ErrorCode) (h : commandError i s.kv = some e) :
    exec i s = .next (s.recordError e) := by
  cases i with
  | encrypt | decrypt => exact congrArg Host.Outcome.next (requireKey_of_error s _ e h)
  | addRoundKey idx | readRoundKey idx => exact congrArg Host.Outcome.next (requireIndexAndKey_of_error s _ idx e h)
  | _ => cases h

/-- A command that raises no error is performed. -/
theorem exec_performed (i : Instr) (s : State) (h : commandError i s.kv = none) :
    ∃ t, exec i s = .next t ∧ Performed s i t := by
  cases i with
  | nop => exact ⟨_, rfl, .nop⟩
  | clearStatus => exact ⟨_, rfl, .clearStatus⟩
  | loadKey => exact ⟨_, rfl, .loadKey⟩
  | encrypt =>
    have hk := commandError_encrypt_none _ h
    exact ⟨_, congrArg Host.Outcome.next (requireKey_valid s _ hk), .encrypt _ hk⟩
  | decrypt =>
    have hk := commandError_encrypt_none _ h
    exact ⟨_, congrArg Host.Outcome.next (requireKey_valid s _ hk), .decrypt _ hk⟩
  | addRoundKey idx =>
    exact ⟨_, congrArg Host.Outcome.next (requireIndexAndKey_of_noError s _ idx h), .writeSt _ _ (.inr ⟨idx, rfl⟩)⟩
  | readRoundKey idx =>
    exact ⟨_, congrArg Host.Outcome.next (requireIndexAndKey_of_noError s _ idx h), .readRoundKey _ _⟩
  | sbox | invSbox | gfMul => exact ⟨_, rfl, .byteResult _ _ (by decide)⟩
  | _ => exact ⟨_, rfl, .writeSt _ _ (.inl (by decide))⟩

/-! ### What an edge does, by the case it takes -/

/-- A step answers one state. -/
theorem next_unique {s t u : State} (h : step s = .next t) (h' : step s = .next u) : t = u := by
  cases h.symm.trans h'
  rfl

theorem Accepts.idle {s : State} {c : Cmd} (h : Accepts s c) : s.phase = .idle := by
  obtain ⟨hp, -⟩ := (accepts_iff s c).1 h
  exact hp

theorem Accepts.rst {s : State} {c : Cmd} (h : Accepts s c) : s.ports.rst = false := by
  obtain ⟨-, -, hr, -⟩ := (accepts_iff s c).1 h
  exact hr

theorem Accepts.cmdValid {s : State} {c : Cmd} (h : Accepts s c) : s.ports.cmdValid = true := by
  obtain ⟨-, -, hv, -⟩ := h
  exact hv

theorem accepts_of_idle {s : State} (hr : s.ports.rst = false) (hp : s.phase = .idle) (hn : s.rnd = 0#4)
    (hv : s.ports.cmdValid = true) : Accepts s s.ports.cmd :=
  (accepts_iff s _).2 ⟨hp, hn, hr, hv, rfl⟩

/-- An accepted word that raises an error records it and nothing else (R43, R244). -/
theorem step_of_error (s : State) (c : Cmd) (e : ErrorCode) (ha : Accepts s c) (he : errorCause c s.kv = some e) :
    step s = .next (s.recordError e).advance := by
  obtain hd | ⟨i, rfl⟩ := illegal_or_encode c
  · cases (errorCause_of_illegal c s.kv hd).symm.trans he
    exact step_of_illegal s c ha hd
  · rw [errorCause_encode] at he
    exact step_of_command s _ _ i ha (decode_encode_or i) (exec_of_commandError i s e he)

/-- An accepted word that raises no error performs the command it decodes to (R43). -/
theorem step_of_noError (s : State) (c : Cmd) (ha : Accepts s c) (he : errorCause c s.kv = none) :
    ∃ i t, encode i = c ∧ decode c = .ok i ∧ commandError i s.kv = none ∧ exec i s = .next t ∧ Performed s i t ∧
      step s = .next t.advance := by
  obtain ⟨i, hi, hd, hn⟩ := errorCause_eq_none c s.kv he
  obtain ⟨t, ht, hp⟩ := exec_performed i s hn
  exact ⟨i, t, hi, hd, hn, ht, hp, step_of_command s t c i ha (.inl hd) ht⟩

/-- The registers after an edge that answers, by the case of R40 it takes; an accept is an error or a performed
command. -/
inductive EdgeCase (s : State) : State → Prop
  | reset (hr : s.ports.rst = true) : EdgeCase s s.resetEdge
  | kexp (hr : s.ports.rst = false) (hp : s.phase = .kexp) (h1 : 1 ≤ s.rnd.toNat) (h10 : s.rnd.toNat ≤ 10) :
      EdgeCase s (kexpStep s)
  | enc (hr : s.ports.rst = false) (hp : s.phase = .enc) : EdgeCase s (encStep s)
  | dec (hr : s.ports.rst = false) (hp : s.phase = .dec) : EdgeCase s (decStep s)
  | quiet (hr : s.ports.rst = false) (hp : s.phase = .idle) (hv : s.ports.cmdValid = false) : EdgeCase s s
  | error (e : ErrorCode) (ha : Accepts s s.ports.cmd) (he : errorCause s.ports.cmd s.kv = some e) :
      EdgeCase s (s.recordError e)
  | command (i : Instr) (t : State) (ha : Accepts s (encode i)) (he : commandError i s.kv = none)
      (ht : Performed s i t) : EdgeCase s t

/-- Every step that answers took one of the cases. -/
theorem edgeCase_of_step (s t : State) (h : step s = .next t) : ∃ u, EdgeCase s u ∧ t = u.advance := by
  have accepted (ha : Accepts s s.ports.cmd) : ∃ u, EdgeCase s u ∧ t = u.advance := by
    cases he : errorCause s.ports.cmd s.kv with
    | some e =>
      cases (step_of_error s _ e ha he).symm.trans h
      exact ⟨_, .error e ha he, rfl⟩
    | none =>
      obtain ⟨i, u, hi, -, hn, -, hp, hs⟩ := step_of_noError s _ ha he
      cases hs.symm.trans h
      exact ⟨u, .command i u (hi ▸ ha) hn hp, rfl⟩
  obtain ⟨hr, rfl⟩ | ⟨hr, hl, h⟩ := step_cases s t h
  · exact ⟨_, .reset hr, rfl⟩
  obtain ⟨hp, rfl⟩ | ⟨hp, rfl⟩ | ⟨hp, rfl⟩ | ⟨hp, hv, rfl⟩ | ⟨ha, -⟩ := h
  · obtain ⟨h1, h10⟩ : 1 ≤ s.rnd.toNat ∧ s.rnd.toNat ≤ 10 := by simpa [hp, sequencerLegal] using hl
    exact ⟨_, .kexp hr hp h1 h10, rfl⟩
  · exact ⟨_, .enc hr hp, rfl⟩
  · exact ⟨_, .dec hr hp, rfl⟩
  · exact ⟨_, .quiet hr hp hv, rfl⟩
  · exact accepted ha

/-! ### The registers of the sequencer steps (R141, R199, R201) -/

@[simp] theorem kexpStep_st (s : State) : (kexpStep s).st = s.st := by
  unfold kexpStep; split_ifs <;> simp
@[simp] theorem kexpStep_aux (s : State) : (kexpStep s).aux = s.aux := by
  unfold kexpStep; split_ifs <;> simp
@[simp] theorem kexpStep_kv (s : State) : (kexpStep s).kv = if s.rnd = 10#4 then true else s.kv := by
  unfold kexpStep; split_ifs <;> simp
@[simp] theorem kexpStep_done (s : State) : (kexpStep s).done = if s.rnd = 10#4 then true else s.done := by
  unfold kexpStep; split_ifs <;> simp
@[simp] theorem kexpStep_err (s : State) : (kexpStep s).err = s.err := by
  unfold kexpStep; split_ifs <;> simp
@[simp] theorem kexpStep_ecode (s : State) : (kexpStep s).ecode = s.ecode := by
  unfold kexpStep; split_ifs <;> simp
@[simp] theorem kexpStep_phase (s : State) : (kexpStep s).phase = if s.rnd = 10#4 then .idle else s.phase := by
  unfold kexpStep; split_ifs <;> simp

@[simp] theorem encStep_aux (s : State) : (encStep s).aux = s.aux := by
  unfold encStep; split_ifs <;> simp
@[simp] theorem encStep_w (s : State) : (encStep s).w = s.w := by
  unfold encStep; split_ifs <;> simp
@[simp] theorem encStep_kv (s : State) : (encStep s).kv = s.kv := by
  unfold encStep; split_ifs <;> simp
@[simp] theorem encStep_done (s : State) : (encStep s).done = if s.rnd = 10#4 then true else s.done := by
  unfold encStep; split_ifs <;> simp
@[simp] theorem encStep_err (s : State) : (encStep s).err = s.err := by
  unfold encStep; split_ifs <;> simp
@[simp] theorem encStep_ecode (s : State) : (encStep s).ecode = s.ecode := by
  unfold encStep; split_ifs <;> simp
@[simp] theorem encStep_phase (s : State) : (encStep s).phase = if s.rnd = 10#4 then .idle else s.phase := by
  unfold encStep; split_ifs <;> simp

@[simp] theorem decStep_aux (s : State) : (decStep s).aux = s.aux := by
  unfold decStep; split_ifs <;> simp
@[simp] theorem decStep_w (s : State) : (decStep s).w = s.w := by
  unfold decStep; split_ifs <;> simp
@[simp] theorem decStep_kv (s : State) : (decStep s).kv = s.kv := by
  unfold decStep; split_ifs <;> simp
@[simp] theorem decStep_done (s : State) : (decStep s).done = if s.rnd = 0#4 then true else s.done := by
  unfold decStep; split_ifs <;> simp
@[simp] theorem decStep_err (s : State) : (decStep s).err = s.err := by
  unfold decStep; split_ifs <;> simp
@[simp] theorem decStep_ecode (s : State) : (decStep s).ecode = s.ecode := by
  unfold decStep; split_ifs <;> simp
@[simp] theorem decStep_phase (s : State) : (decStep s).phase = if s.rnd = 0#4 then .idle else s.phase := by
  unfold decStep; split_ifs <;> simp

/-! ### Who writes ST, AUX and W (R24, R25, R26) -/

/-- Settles O16: by the cases of the edge and the kinds of commands. -/
theorem writersOfTheStateRegister : Obligations.WritersOfTheStateRegister := by
  intro s t h
  refine ⟨fun hr => ?_, ?_⟩
  · rw [next_unique h (step_of_rst s hr)]
    rfl
  obtain ⟨u, hu, rfl⟩ := edgeCase_of_step s t h
  intro hne
  rw [State.advance_st] at hne
  cases hu with
  | reset hr => exact .inl hr
  | enc _ hp => exact .inr (.inl hp)
  | dec _ hp => exact .inr (.inr (.inl hp))
  | kexp | quiet | error => simp at hne
  | command i _ ha _ ht =>
    refine .inr (.inr (.inr ⟨i, ha, ?_⟩))
    cases ht with
    | writeSt _ _ hi => exact hi.imp_left fun hi => List.Sublist.subset (by decide) hi
    | encrypt | decrypt => exact .inl (by decide)
    | _ => simp at hne

/-- A byte result has 0 above bit 7 (R69). -/
theorem extractLsb'_zextByte (b : Byte) : (zextByte b).extractLsb' 8 120 = 0#120 := by
  rw [zextByte_eq]
  exact BitVec.extractLsb'_append_eq_left

/-- Settles O17: by the same cases; a byte result is zero-extended. -/
theorem writersOfTheResultRegister : Obligations.WritersOfTheResultRegister := by
  intro s t h
  refine ⟨fun hr => ?_, ?_, fun i hi ha => ?_⟩
  · rw [next_unique h (step_of_rst s hr)]
    rfl
  · obtain ⟨u, hu, rfl⟩ := edgeCase_of_step s t h
    intro hne
    rw [State.advance_aux] at hne
    cases hu with
    | reset hr => exact .inl hr
    | kexp | enc | dec | quiet | error => simp at hne
    | command i _ ha _ ht =>
      refine .inr ⟨i, ha, ?_⟩
      cases ht with
      | byteResult _ _ hi => exact .inl hi
      | readRoundKey r => exact .inr ⟨r, rfl⟩
      | _ => simp at hne
  · obtain ⟨b, he⟩ : ∃ b, exec i s = .next (s.writeAux (zextByte b)).complete := by
      simp only [List.mem_cons, List.not_mem_nil, or_false] at hi
      obtain rfl | rfl | rfl := hi
      all_goals exact ⟨_, rfl⟩
    rw [next_unique h (step_of_command s _ _ i ha (decode_encode_or i) he)]
    exact extractLsb'_zextByte b

/-- A word of W that an edge changes is one of W[0..3] at the accept of LOAD_KEY, or of W[4..43] at a KEXP step. -/
theorem readWord_changed {s t : State} (h : step s = .next t) {i : Nat} (hne : readWord t.w i ≠ readWord s.w i) :
    s.ports.rst = false ∧ ((Accepts s 0x0001#16 ∧ i < 4) ∨ (s.phase = .kexp ∧ 4 ≤ i ∧ i < 44)) := by
  obtain ⟨u, hu, rfl⟩ := edgeCase_of_step s t h
  rw [State.advance_w] at hne
  cases hu with
  | reset | enc | dec | quiet | error => simp at hne
  | kexp hr hp h1 h10 =>
    have hi : ¬ (i < 4 * s.rnd.toNat ∨ 4 * s.rnd.toNat + 4 ≤ i) := fun hi =>
      hne (by rw [kexpStep_w, readWord_expandRoundKey_of_ne _ _ _ hi])
    exact ⟨hr, .inr ⟨hp, by omega, by omega⟩⟩
  | command i _ ha _ ht =>
    cases ht with
    | loadKey =>
      refine ⟨ha.rst, .inl ⟨ha, ?_⟩⟩
      by_contra hi
      simp [readWord_writeKeyWords, hi] at hne
    | _ => simp at hne

/-- Settles O18: `readWord_changed`, and no listed command reads W. -/
theorem writersOfTheRoundKeyStore : Obligations.WritersOfTheRoundKeyStore := by
  refine ⟨fun s t h i hne => readWord_changed h hne, fun i s v hi => ?_⟩
  cases i with
  | loadKey | encrypt | decrypt | addRoundKey | readRoundKey => simp at hi
  | _ => exact ⟨_, rfl, rfl⟩

/-! ### The schedule that a key expansion builds (R134, R135, R141) -/

/-- `n` words of R134 written over the store `w`, from W[4] on. -/
def expandWords (w : RoundKeyStore) (n : Nat) : RoundKeyStore :=
  (List.range' 4 n).foldl (fun w i => writeWord w i (expandedWord w i)) w

theorem keyExpansion_eq (k : Block) :
    keyExpansion k = expandWords (writeKeyWords (Vector.replicate 44 0#32) k) 40 := rfl

theorem expandWords_succ (w : RoundKeyStore) (n : Nat) :
    expandWords w (n + 1) = writeWord (expandWords w n) (4 + n) (expandedWord (expandWords w n) (4 + n)) := by
  simp [expandWords, List.range'_1_concat]

/-- A word below the index reached is not written again. -/
theorem readWord_expandWords_of_lt (w : RoundKeyStore) (m n i : Nat) (hm : m ≤ n) (hi : i < 4 + m) :
    readWord (expandWords w n) i = readWord (expandWords w m) i := by
  induction n, hm using Nat.le_induction with
  | base => rfl
  | succ n hm ih => rw [expandWords_succ, readWord_writeWord, if_neg (by omega), ih]

/-- Word i of R134 reads only words below i. -/
theorem expandedWord_congr (u w : RoundKeyStore) (i : Nat) (h4 : 4 ≤ i)
    (h : ∀ n, n < i → readWord u n = readWord w n) : expandedWord u i = expandedWord w i := by
  simp only [expandedWord, h (i - 1) (by omega), h (i - 4) (by omega)]

/-- The recurrence of R134, on the finished store. -/
theorem readWord_keyExpansion (k : Block) (i : Nat) (h4 : 4 ≤ i) (h44 : i < 44) :
    readWord (keyExpansion k) i = expandedWord (keyExpansion k) i := by
  obtain ⟨n, rfl⟩ := Nat.exists_eq_add_of_le h4
  rw [keyExpansion_eq]
  generalize writeKeyWords (Vector.replicate 44 0#32) k = w
  calc readWord (expandWords w 40) (4 + n)
    _ = readWord (expandWords w (n + 1)) (4 + n) := readWord_expandWords_of_lt w _ _ _ (by omega) (by omega)
    _ = expandedWord (expandWords w n) (4 + n) := by rw [expandWords_succ, readWord_writeWord, if_pos ⟨rfl, h44⟩]
    _ = expandedWord (expandWords w 40) (4 + n) := expandedWord_congr _ _ _ h4 fun m hm =>
        (readWord_expandWords_of_lt w n 40 m (by omega) hm).symm

/-- The first four words are the key (R130). -/
theorem roundKey_keyExpansion (k : Block) : roundKey (keyExpansion k) 0 = k := by
  rw [keyExpansion_eq, ← roundKey_writeKeyWords (Vector.replicate 44 0#32) k]
  exact roundKey_congr _ _ _ fun c hc => by
    rw [roundKey_writeKeyWords, readWord_expandWords_of_lt _ 0 40 _ (by omega) (by omega)]; rfl

/-- A finished schedule is a fixed point of expanding any of its round keys again (R135). -/
theorem expandRoundKey_keyExpansion (k : Block) (j : Nat) (h1 : 1 ≤ j) (h10 : j ≤ 10) :
    expandRoundKey (keyExpansion k) j = keyExpansion k := by
  have h0 : readWord (expandRoundKey (keyExpansion k) j) (4 * j) = readWord (keyExpansion k) (4 * j) := by
    rw [readWord_expandRoundKey_zero _ _ (by omega), readWord_keyExpansion k (4 * j) (by omega) (by omega),
      expandedWord, if_pos (by omega), Nat.mul_div_cancel_left j (by omega)]
  have hs (n : Nat) (hn : n < 3)
      (ih : readWord (expandRoundKey (keyExpansion k) j) (4 * j + n) = readWord (keyExpansion k) (4 * j + n)) :
      readWord (expandRoundKey (keyExpansion k) j) (4 * j + n + 1) = readWord (keyExpansion k) (4 * j + n + 1) := by
    rw [readWord_expandRoundKey_succ _ _ _ h1 (by omega) hn, ih,
      readWord_keyExpansion k (4 * j + n + 1) (by omega) (by omega), expandedWord, if_neg (by omega),
      show 4 * j + n + 1 - 4 = 4 * j - 3 + n by omega, Nat.add_sub_cancel]
  refine eq_of_readWord _ _ fun i _ => ?_
  by_cases hi : i < 4 * j ∨ 4 * j + 4 ≤ i
  · exact readWord_expandRoundKey_of_ne _ _ _ hi
  obtain rfl | rfl | rfl | rfl : i = 4 * j ∨ i = 4 * j + 1 ∨ i = 4 * j + 2 ∨ i = 4 * j + 3 := by omega
  · exact h0
  · exact hs 0 (by omega) h0
  · exact hs 1 (by omega) (hs 0 (by omega) h0)
  · exact hs 2 (by omega) (hs 1 (by omega) (hs 0 (by omega) h0))

theorem roundKey_expandRoundKey (w : RoundKeyStore) (j : Nat) (h1 : 1 ≤ j) :
    roundKey (expandRoundKey w j) 0 = roundKey w 0 :=
  roundKey_congr _ _ _ fun _ _ => readWord_expandRoundKey_of_ne _ _ _ (.inl (by omega))

/-- A KEXP step takes a correct schedule one round key further (R141). -/
theorem scheduleUpTo_expandRoundKey (w : RoundKeyStore) (j : Nat) (h1 : 1 ≤ j) (h10 : j ≤ 10)
    (h : ScheduleUpTo w (4 * j)) : ScheduleUpTo (expandRoundKey w j) (4 * j + 4) := by
  intro i hi
  rw [roundKey_expandRoundKey w j h1, readWord_expandRoundKey_congr w _ j h1 (by omega) h i hi,
    expandRoundKey_keyExpansion _ j h1 h10]

theorem eq_keyExpansion_of_scheduleUpTo (w : RoundKeyStore) (h : ScheduleUpTo w 44) :
    w = keyExpansion (roundKey w 0) :=
  eq_of_readWord _ _ h

/-! ### KV (R27) -/

/-- KV = 1 after a step only over a complete schedule: KEXP completes it, and no other step that leaves KV = 1 writes
W. -/
theorem schedule_after_step {s t : State} (hi : Inv s) (h : step s = .next t) (hk : t.kv = true) :
    t.w = keyExpansion (roundKey t.w 0) := by
  obtain ⟨u, hu, rfl⟩ := edgeCase_of_step s t h
  simp only [State.advance_w, State.advance_kv] at hk ⊢
  cases hu with
  | reset => cases hk
  | kexp _ hp h1 h10 =>
    obtain ⟨hk0, hw⟩ := hi.expanding hp
    have hn : s.rnd = 10#4 := by
      by_contra hn
      simp [hn, hk0] at hk
    rw [kexpStep_w]
    have h44 := scheduleUpTo_expandRoundKey s.w s.rnd.toNat h1 h10 hw
    rw [hn] at h44 ⊢
    exact eq_keyExpansion_of_scheduleUpTo _ h44
  | enc | dec =>
    simp only [encStep_w, encStep_kv, decStep_w, decStep_kv] at hk ⊢
    exact hi.schedule hk
  | quiet => exact hi.schedule hk
  | error => exact hi.schedule hk
  | command _ _ _ _ ht =>
    cases ht with
    | loadKey => cases hk
    | _ => exact hi.schedule hk

/-- KV changes only at the accept of LOAD_KEY, a reset or the final KEXP step. -/
theorem kv_changed {s t : State} (h : step s = .next t) (hne : t.kv ≠ s.kv) :
    Accepts s 0x0001#16 ∨ s.ports.rst = true ∨ (s.ports.rst = false ∧ s.phase = .kexp ∧ s.rnd = 10#4) := by
  obtain ⟨u, hu, rfl⟩ := edgeCase_of_step s t h
  rw [State.advance_kv] at hne
  cases hu with
  | reset hr => exact .inr (.inl hr)
  | kexp hr hp =>
    refine .inr (.inr ⟨hr, hp, ?_⟩)
    by_contra hn
    simp [hn] at hne
  | enc | dec | quiet | error => simp at hne
  | command _ _ ha _ ht =>
    cases ht with
    | loadKey => exact .inl ha
    | _ => simp at hne

theorem step_of_loadKey (s : State) (ha : Accepts s 0x0001#16) :
    step s = .next (((s.writeStore (writeKeyWords s.w s.ports.keyIn)).writeKv false).startSequence .kexp 1#4).advance :=
  step_of_command s _ _ .loadKey ha (.inl (by decide)) rfl

/-- Settles O19: the schedule clause by `schedule_after_step`, the others from the two writers of W and of KV. -/
theorem keyValidFlagFollowsTheSchedule : Obligations.KeyValidFlagFollowsTheSchedule := by
  intro s t hi h
  refine ⟨schedule_after_step hi h, fun ha => ?_, fun hne => ?_, fun hr hp hn => ?_, fun hr => ?_, kv_changed h⟩
  · rw [next_unique h (step_of_loadKey s ha)]
    exact ⟨rfl, roundKey_writeKeyWords _ _⟩
  · by_contra hna
    refine hne (roundKey_congr _ _ _ fun c hc => ?_)
    by_contra hw
    obtain ⟨-, ⟨ha, -⟩ | ⟨-, h4, -⟩⟩ := readWord_changed h hw
    · exact hna ha
    · omega
  · rw [next_unique h (step_of_kexp s hr hp hi.sequencer)]
    simp [hn]
  · rw [next_unique h (step_of_rst s hr)]
    rfl

/-! ### DONE, ERR, ECODE and PHASE (R28, R29, R31) and the error of an accepted word (R243) -/

theorem startedPhase_writeSt {i : Instr} (h : i ∈ [.loadState, .subBytes, .invSubBytes, .shiftRows, .invShiftRows,
    .mixColumns, .invMixColumns] ∨ ∃ r, i = .addRoundKey r) : startedPhase i = none := by
  obtain h | ⟨r, rfl⟩ := h
  · revert i; decide
  · rfl

theorem startedPhase_byteResult {i : Instr} (h : i ∈ [.sbox, .invSbox, .gfMul]) : startedPhase i = none := by
  revert i; decide

/-- A performed command is done unless it starts a phase (R28). -/
theorem Performed.done {s t : State} {i : Instr} (ht : Performed s i t) : t.done = !(startedPhase i).isSome := by
  cases ht with
  | writeSt _ _ hi => rw [startedPhase_writeSt hi]; rfl
  | byteResult _ _ hi => rw [startedPhase_byteResult hi]; rfl
  | _ => rfl

theorem Performed.phase {s t : State} {i : Instr} (ht : Performed s i t) :
    t.phase = (startedPhase i).getD s.phase := by
  cases ht with
  | writeSt _ _ hi => rw [startedPhase_writeSt hi]; rfl
  | byteResult _ _ hi => rw [startedPhase_byteResult hi]; rfl
  | _ => rfl

/-- Only CLEAR_STATUS, among the commands that raise no error, writes ERR and ECODE. -/
theorem Performed.error_flags {s t : State} {i : Instr} (ht : Performed s i t) :
    (t.err = s.err ∧ t.ecode = s.ecode) ∨ i = .clearStatus := by
  cases ht with
  | clearStatus => exact .inr rfl
  | _ => exact .inl (by simp)

theorem multiCycle_iff (i : Instr) :
    encode i = 0x0001#16 ∨ encode i = 0x0002#16 ∨ encode i = 0x0003#16 ↔ (startedPhase i).isSome = true := by
  cases i with
  | addRoundKey idx | readRoundKey idx => revert idx; decide
  | _ => decide

theorem busyEdgesOf_of_error (c : Cmd) (kv : Bool) (e : ErrorCode) (h : errorCause c kv = some e) :
    busyEdgesOf c kv = 0 := by
  simp [busyEdgesOf, h]

theorem busyEdgesOf_encode (i : Instr) (kv : Bool) (h : commandError i kv = none) :
    busyEdgesOf (encode i) kv = if (startedPhase i).isSome then 10 else 0 := by
  simp only [busyEdgesOf, errorCause_encode, h, multiCycle_iff, true_and, Config.busyEdges]

/-- At an accept edge DONE tells whether busy edges follow. -/
theorem done_after_accept {s t : State} {c : Cmd} (h : step s = .next t) (ha : Accepts s c) :
    t.done = decide (busyEdgesOf c s.kv = 0) := by
  cases he : errorCause c s.kv with
  | some e =>
    rw [next_unique h (step_of_error s c e ha he), busyEdgesOf_of_error c _ e he]
    rfl
  | none =>
    obtain ⟨i, u, rfl, -, hn, -, hp, hs⟩ := step_of_noError s c ha he
    rw [next_unique h hs, State.advance_done, hp.done, busyEdgesOf_encode i _ hn]
    cases (startedPhase i).isSome <;> rfl

/-- Settles O20: DONE at an accept by `done_after_accept`, at the other edges by the case of the edge. -/
theorem doneFlagAtEveryEdge : Obligations.DoneFlagAtEveryEdge := by
  intro s t h
  refine ⟨fun c ha hb => ?_, fun c ha hb => ?_, fun hr => ?_, fun hr => ?_⟩
  · rw [done_after_accept h ha, hb]; rfl
  · rw [done_after_accept h ha, decide_eq_false hb]
  · rw [next_unique h (step_of_rst s hr)]; rfl
  obtain ⟨u, hu, rfl⟩ := edgeCase_of_step s t h
  rw [State.advance_done]
  cases hu with
  | reset h1 => simp [hr] at h1
  | kexp _ hp | enc _ hp | dec _ hp => simp +contextual [hp]
  | quiet _ hp => simp [hp]
  | error _ ha => simp [ha.idle, ha.cmdValid]
  | command _ _ ha => simp [ha.idle, ha.cmdValid]

/-- Settles O21: an error, CLEAR_STATUS and reset are the only cases of an edge that write ERR or ECODE. -/
theorem errorFlagsChangeInThreeWays : Obligations.ErrorFlagsChangeInThreeWays := by
  intro s t h
  refine ⟨fun c e ha he => ?_, fun ha => ?_, fun hr => ?_, ?_⟩
  · rw [next_unique h (step_of_error s c e ha he)]
    exact ⟨rfl, rfl⟩
  · rw [next_unique h (step_of_command s _ _ .clearStatus ha (.inl (by decide)) rfl)]
    exact ⟨rfl, rfl⟩
  · rw [next_unique h (step_of_rst s hr)]
    exact ⟨rfl, rfl⟩
  obtain ⟨u, hu, rfl⟩ := edgeCase_of_step s t h
  intro hne
  rw [State.advance_err, State.advance_ecode] at hne
  cases hu with
  | reset hr => exact .inl hr
  | kexp | enc | dec | quiet => simp at hne
  | error e ha he => exact .inr (.inr ⟨_, e, ha, he⟩)
  | command i _ ha _ ht =>
    obtain ⟨he, hc⟩ | rfl := ht.error_flags
    · simp [he, hc] at hne
    · exact .inr (.inl ha)

/-- The phase after the accept of a command that raises no error. -/
theorem phase_after_accept {s t : State} (i : Instr) (h : step s = .next t) (ha : Accepts s (encode i))
    (he : commandError i s.kv = none) : t.phase = (startedPhase i).getD .idle := by
  obtain ⟨j, u, hj, -, -, -, hp, hs⟩ := step_of_noError s _ ha ((errorCause_encode i _).trans he)
  rw [next_unique h hs, State.advance_phase, hp.phase, encode_injective hj, ha.idle]

/-- Settles O22: the accepts by `phase_after_accept`, the other edges by the case of the edge. -/
theorem phaseMovesOnlyAtAcceptFinalStepAndReset : Obligations.PhaseMovesOnlyAtAcceptFinalStepAndReset := by
  refine ⟨rfl, rfl, rfl, rfl, fun s t h => ⟨fun ha => ?_, fun ha hk => ?_, fun ha hk => ?_, fun hr => ?_, ?_, ?_⟩⟩
  · exact phase_after_accept .loadKey h ha rfl
  · exact phase_after_accept .encrypt h ha (by rw [hk]; rfl)
  · exact phase_after_accept .decrypt h ha (by rw [hk]; rfl)
  · rw [next_unique h (step_of_rst s hr)]; rfl
  all_goals
    obtain ⟨u, hu, rfl⟩ := edgeCase_of_step s t h
    rw [State.advance_phase]
  · intro hr hf
    cases hu with
    | reset => rfl
    | kexp _ hp | enc _ hp | dec _ hp => simpa [hp] using hf
    | quiet _ hp => exact hp
    | error _ ha => exact ha.idle
    | command _ _ ha => simp [ha.idle] at hf
  · intro hne
    cases hu with
    | reset hr => exact .inl hr
    | kexp _ hp | enc _ hp | dec _ hp =>
      refine .inr (.inr (.inr (.inr ?_)))
      simpa [hp] using hne
    | quiet | error => simp at hne
    | command i _ ha _ ht =>
      cases ht with
      | loadKey => exact .inr (.inl ha)
      | encrypt _ hk => exact .inr (.inr (.inl ⟨ha, hk⟩))
      | decrypt _ hk => exact .inr (.inr (.inr (.inl ⟨ha, hk⟩)))
      | _ => simp at hne

/-- Settles O23: `step_of_error` and `step_of_noError`. -/
theorem acceptedWordRecordsItsFirstError : Obligations.AcceptedWordRecordsItsFirstError := by
  refine ⟨fun s c ha => ⟨fun e he => step_of_error s c e ha he, fun he => ?_⟩, by decide, by decide, by decide⟩
  obtain ⟨i, t, -, hd, -, ht, hp, hs⟩ := step_of_noError s c ha he
  obtain ⟨u, hu, hdr⟩ := exec_next i s
  cases hu.symm.trans ht
  exact ⟨i, t, hd, ht, by rw [hs, State.advance, hdr], hp.error_flags⟩

/-! ### The outputs (R21, R22, R23, R30) -/

/-- The fields of a word put together as STATUS is. -/
theorem extractLsb'_eightFields (z r : BitVec 4) (p e : BitVec 2) (a b c d : BitVec 1) :
    let x := z ++ r ++ p ++ e ++ a ++ b ++ c ++ d
    x.extractLsb' 0 1 = d ∧ x.extractLsb' 1 1 = c ∧ x.extractLsb' 2 1 = b ∧ x.extractLsb' 3 1 = a ∧
      x.extractLsb' 4 2 = e ∧ x.extractLsb' 6 2 = p ∧ x.extractLsb' 8 4 = r ∧ x.extractLsb' 12 4 = z := by
  simp (disch := omega) only [BitVec.extractLsb'_append_eq_of_le, BitVec.extractLsb'_append_eq_of_add_le,
    Nat.reduceSub, BitVec.extractLsb'_eq_self, and_self]

theorem ofBool_eq_ite (b : Bool) : BitVec.ofBool b = if b then 1#1 else 0#1 := by
  cases b <;> rfl

/-- Settles O5: by the eight fields of the word. -/
theorem statusWordFields : Obligations.StatusWordFields := by
  refine ⟨fun s => ?_, fun _ _ => rfl⟩
  obtain ⟨hbusy, hkv, hdone, herr, hecode, hphase, hrnd, hzero⟩ := extractLsb'_eightFields 0#4 s.rnd s.phase.bits
    s.ecode.bits (.ofBool s.err) (.ofBool s.done) (.ofBool s.kv) (.ofBool s.busy)
  refine ⟨hbusy.trans ?_, hkv.trans (ofBool_eq_ite _), hdone.trans (ofBool_eq_ite _), herr.trans (ofBool_eq_ite _),
    hecode.trans ?_, hphase.trans ?_, hrnd, hzero⟩
  · rw [State.busy]; cases s.phase <;> rfl
  · cases s.ecode <;> rfl
  · cases s.phase <;> rfl

/-- Settles O6: `cmd_ready` is a function of PHASE and `rst`. -/
theorem readyAndDataOutputs : Obligations.ReadyAndDataOutputs := by
  refine ⟨cmdReady_iff, fun s p q rest hr => ?_, fun s => ⟨rfl, rfl⟩⟩
  exact congrArg (fun r => !s.busy && !r) hr

/-! ### The cases of the step (R37, R40, R42) -/

theorem accept_of_command (s : State) (i : Instr)
    (hd : decode s.ports.cmd = .ok i ∨ decode s.ports.cmd = .badIndex i) : accept s = exec i s := by
  obtain hd | hd := hd <;> rw [accept, hd]

/-- At an accept edge the step is `accept`, after which the host's next levels stand on the ports. -/
theorem step_of_accept (s : State) (ha : Accepts s s.ports.cmd) :
    ∃ t, accept s = .next t ∧ t.drive = s.drive ∧ step s = .next t.advance := by
  obtain hd | ⟨i, hi⟩ := illegal_or_encode s.ports.cmd
  · exact ⟨s.recordError .illegalCommand, by rw [accept, hd], rfl, step_of_illegal s _ ha hd⟩
  have hd := hi ▸ decode_encode_or i
  obtain ⟨t, he, hdr⟩ := exec_next i s
  exact ⟨t, (accept_of_command s i hd).trans he, hdr, step_of_command s t _ i ha hd he⟩

/-- Settles O7: one equation on `step` for each case. -/
theorem stepTakesTheFirstCaseThatApplies : Obligations.StepTakesTheFirstCaseThatApplies := by
  refine fun s => ⟨step_of_rst s, fun hr hl => ⟨fun hp => step_of_kexp s hr hp hl, fun hp => step_of_enc s hr hp hl,
    fun hp => step_of_dec s hr hp hl, fun hp hv => ?_, fun hp hv => ?_⟩⟩
  all_goals have hn : s.rnd = 0#4 := (sequencerLegal_idle _).1 (hp ▸ hl)
  · obtain ⟨t, ht, -, hs⟩ := step_of_accept s (accepts_of_idle hr hp hn hv)
    exact ⟨t, ht, hs⟩
  · exact step_of_idle s hr hp hn hv

/-- Settles O9: the last case of R40. -/
theorem idleEdgeKeepsEveryRegister : Obligations.IdleEdgeKeepsEveryRegister :=
  step_of_idle

/-- The sequencer steps neither read nor write the ports (R37). -/
theorem kexpStep_withDrive (s : State) (d : List Ports) :
    kexpStep { s with drive := d } = { kexpStep s with drive := d } := by
  unfold kexpStep
  split_ifs <;> rfl

theorem encStep_withDrive (s : State) (d : List Ports) :
    encStep { s with drive := d } = { encStep s with drive := d } := by
  unfold encStep
  split_ifs <;> rfl

theorem decStep_withDrive (s : State) (d : List Ports) :
    decStep { s with drive := d } = { decStep s with drive := d } := by
  unfold decStep
  split_ifs <;> rfl

theorem phase_of_ne_idle (p : Phase) (h : p ≠ .idle) : p = .kexp ∨ p = .enc ∨ p = .dec := by
  cases p with
  | idle => exact absurd rfl h
  | kexp => exact .inl rfl
  | enc => exact .inr (.inl rfl)
  | dec => exact .inr (.inr rfl)

/-- The step of a busy edge with `rst` = 0 depends on the ports only by dropping the levels of this edge (R37). -/
theorem step_busy_withDrive (s : State) (p q : Ports) (rest : List Ports) (hb : s.phase ≠ .idle)
    (hp : p.rst = false) (hq : q.rst = false) :
    step { s with drive := p :: rest } = step { s with drive := q :: rest } := by
  by_cases hl : sequencerLegal s.phase s.rnd = true
  swap
  · have fault (x : Ports) (hx : x.rst = false) : step { s with drive := x :: rest } = .fault _ :=
      step_of_illegalPair { s with drive := x :: rest } hx (by simpa using hl)
    rw [fault p hp, fault q hq]
  obtain ⟨t, ht⟩ : ∃ t, ∀ x : Ports, x.rst = false → step { s with drive := x :: rest } = .next t := by
    obtain hs | hs | hs := phase_of_ne_idle s.phase hb
    · exact ⟨{ kexpStep s with drive := rest }, fun x hx => by
        rw [step_of_kexp { s with drive := x :: rest } hx hs hl, kexpStep_withDrive]; rfl⟩
    · exact ⟨{ encStep s with drive := rest }, fun x hx => by
        rw [step_of_enc { s with drive := x :: rest } hx hs hl, encStep_withDrive]; rfl⟩
    · exact ⟨{ decStep s with drive := rest }, fun x hx => by
        rw [step_of_dec { s with drive := x :: rest } hx hs hl, decStep_withDrive]; rfl⟩
  rw [ht p hp, ht q hq]

/-- Settles O10: a reset or busy edge does the same for all levels, and an idle edge reads them at an accept only. -/
theorem portsAreReadOnlyAtAnAcceptEdge : Obligations.PortsAreReadOnlyAtAnAcceptEdge := by
  refine ⟨fun s p q rest hpq h => ?_, fun s p rest hr hp hn =>
    ⟨step_of_idle { s with drive := p :: rest } hr hp hn, fun hv => ?_⟩⟩
  · cases hr : p.rst with
    | true =>
      rw [step_of_rst { s with drive := p :: rest } hr, step_of_rst { s with drive := q :: rest } (hpq ▸ hr)]
      rfl
    | false => exact step_busy_withDrive s p q rest (by simpa [hr] using h) hr (hpq ▸ hr)
  · obtain ⟨t, ht, hd, hs⟩ := step_of_accept { s with drive := p :: rest } (accepts_of_idle hr hp hn hv)
    exact ⟨t, ht, by rw [hs, State.advance, hd]; rfl⟩

end Machine
end Sys2Proof
end

section
/-! SUPPORT. The family of 30_encoding.md: the decoder's result by the fields of the word. A word that is not illegal is
the word of one command, so its result is that command, legal or with its index out of range. -/

namespace Sys2Proof

/-- A command is legal exactly when its index is, if its OP uses one (R82, R85). -/
theorem wf_iff (i : Instr) : i.wf = true ↔ (indexedOp i.opcode = true → i.index ≤ 10#4) := by
  rw [wf_eq, BitVec.le_def, Bool.or_eq_true, legalIndex_iff, Bool.not_eq_true', ← Bool.not_eq_true]
  exact imp_iff_not_or.symm

/-- A word that is not illegal names the command with its OP and its IDX (R84). -/
theorem exists_command_of_not_illegal (c : Cmd) (h : ¬ decode c = .illegal) :
    ∃ i : Instr, i.opcode = opField c ∧ i.index = idxField c ∧ decode c = if i.wf then .ok i else .badIndex i := by
  obtain hd | ⟨i, rfl⟩ := illegal_or_encode c
  · exact absurd hd h
  · exact ⟨i, (opField_encode i).symm, (idxField_encode i).symm, decode_encode i⟩

/-- A word with RSV = 0 and an indexed OP names that command, and IDX alone says whether it is legal (R84). -/
theorem decode_of_indexedOp (c : Cmd) (hr : rsvField c = 0#4) (hx : indexedOp (opField c) = true) :
    ∃ i : Instr, i.opcode = opField c ∧ i.index = idxField c ∧
      decode c = if idxField c ≤ 10#4 then .ok i else .badIndex i := by
  have hop : ¬ 0x10#8 < opField c := by
    obtain h | h := (indexedOp_iff _).1 hx <;> rw [h] <;> decide
  obtain ⟨i, ho, hi, hd⟩ := exists_command_of_not_illegal c (by simp [decode_eq_illegal_iff, hr, hop, hx])
  have hw : i.wf = true ↔ idxField c ≤ 10#4 := by rw [wf_iff, ho, hi, forall_prop_of_true hx]
  exact ⟨i, ho, hi, by simp only [hd, hw]⟩

/-- A word with RSV = 0, IDX = 0 and an assigned OP that uses no index is a legal command (R84). -/
theorem decode_of_plainOp (c : Cmd) (hr : rsvField c = 0#4) (hop : opField c ≤ 0x10#8)
    (hx : ¬ indexedOp (opField c) = true) (hz : idxField c = 0#4) :
    ∃ i : Instr, i.opcode = opField c ∧ i.index = 0#4 ∧ decode c = .ok i := by
  obtain ⟨i, ho, hi, hd⟩ := exists_command_of_not_illegal c
    (by simp [decode_eq_illegal_iff, hr, hz, BitVec.not_lt.2 hop])
  have hw : i.wf = true := (wf_iff i).2 fun h => absurd (ho ▸ h) hx
  exact ⟨i, ho, hi.trans hz, by rw [hd, if_pos hw]⟩

namespace Machine

/-- A word with its index out of range raises BAD_ROUND_INDEX, with a valid key or without (R84, R243). -/
theorem errorCause_of_badIndex (c : Cmd) (i : Instr) (kv : Bool) (h : decode c = .badIndex i) :
    errorCause c kv = some .badRoundIndex := by
  obtain rfl := encode_of_decode c i (.inr h)
  have hw : ¬ i.wf = true := fun hw => by
    rw [decode_encode, if_pos hw] at h
    cases h
  rw [errorCause_encode, commandError, if_neg hw]

/-- An accepted word that raises an error sets ERR, and ECODE unless ERR was already 1 (R241, R243). -/
theorem error_flags_of_errorCause (s : State) (c : Cmd) (e : ErrorCode) (ha : Accepts s c)
    (he : errorCause c s.kv = some e) :
    ∃ t, step s = .next t ∧ t.err = true ∧ t.ecode = if s.err then s.ecode else e :=
  ⟨_, step_of_error s c e ha he, rfl, rfl⟩

/-- Settles O1: the illegal words by `decode_eq_illegal_iff`, the commands by `decode_of_indexedOp` and
`decode_of_plainOp`, and the two rejections by the error they raise. -/
theorem decoderResultForEveryWord : Obligations.DecoderResultForEveryWord := by
  refine ⟨fun c => ⟨fun hr => ?_, fun _ hop => ?_, fun hr hx => ?_, fun hr hop hb hc => ?_⟩,
    fun s c ha => ⟨fun hd => ?_, fun i hd => ?_⟩⟩
  · exact (decode_eq_illegal_iff c).2 (.inl hr)
  · exact (decode_eq_illegal_iff c).2 (.inr (.inl hop))
  · obtain ⟨i, ho, hi, hd⟩ := decode_of_indexedOp c hr ((indexedOp_iff _).2 hx)
    exact ⟨i, ho, hi, fun h => by rw [hd, if_neg (BitVec.not_le.2 h)], fun h => by rw [hd, if_pos h]⟩
  · have hx : ¬ indexedOp (opField c) = true := by simp [indexedOp_iff, hb, hc]
    exact ⟨fun hz => (decode_eq_illegal_iff c).2 (.inr (.inr ⟨hx, hz⟩)), decode_of_plainOp c hr hop hx⟩
  · exact error_flags_of_errorCause s c _ ha (errorCause_of_illegal c s.kv hd)
  · exact error_flags_of_errorCause s c _ ha (errorCause_of_badIndex c i s.kv hd)

end Machine
end Sys2Proof
end

section
/-! SUPPORT. The family of 41_sbox_gf.md: the commands with a byte result. A plain opcode has one legal word, a byte
result reaches AUX zero-extended, and the laws of the multiplier follow from its additivity and its values at the
single bits. -/

namespace Sys2Proof.Machine

/-! ### Words and results of the commands -/

/-- A command whose OP uses no index has its encoding as its only legal word (R80, R84, R85). -/
theorem onlyWordOf_encode (i : Instr) (h : indexedOp i.opcode = false) : OnlyWordOf i (encode i) := by
  have hw : i.wf = true := by rw [wf_eq, h]; rfl
  refine ⟨rfl, by rw [decode_encode, if_pos hw], fun c' ho hne => ?_⟩
  obtain hd | ⟨j, rfl⟩ := illegal_or_encode c'
  · exact hd
  · rw [opField_encode, opField_encode] at ho
    have hj : j.index = i.index := by
      rw [index_of_not_indexedOp i h, index_of_not_indexedOp j (ho ▸ h)]
    exact absurd (show encode j = encode i by rw [encode, encode, ho, hj]) hne

/-- What a command with a byte result does to the state: AUX, zero-extended, and DONE (R69, R110 to R112). -/
theorem complete_writeAux_zextByte (s : State) (b : Byte) :
    (s.writeAux (zextByte b)).complete = { s with aux := 0#120 ++ b, done := true } := by
  rw [zextByte_eq]
  rfl

/-! ### The tables (R108) -/

theorem invSbox_sbox (x : Byte) : invSbox (sbox x) = x := by
  revert x
  decide +kernel

/-! ### The laws of the multiplier (R104) -/

theorem gfmul_zero (a : Byte) : gfmul a 0#8 = 0#8 := by
  simpa using gfmul_xor_right a 0#8 0#8

theorem gfmul_one (a : Byte) : gfmul a 1#8 = a :=
  additive_ext (gfmul · 1#8) id (fun x y => gfmul_xor_left x y 1#8) (fun _ _ => rfl) (by decide) a

/-- Both sides are additive in each operand, so they agree when they agree on single bits. -/
theorem gfmul_comm (a b : Byte) : gfmul a b = gfmul b a := by
  have single : ∀ m ∈ singleBits, ∀ n ∈ singleBits, gfmul m n = gfmul n m := by decide +kernel
  have left : ∀ m ∈ singleBits, ∀ y, gfmul m y = gfmul y m := fun m hm =>
    additive_ext (gfmul m) (gfmul · m) (gfmul_xor_right m) (fun x y => gfmul_xor_left x y m) (single m hm)
  exact additive_ext (gfmul · b) (gfmul b) (fun x y => gfmul_xor_left x y b) (gfmul_xor_right b)
    (fun m hm => left m hm b) a

theorem zero_gfmul (a : Byte) : gfmul 0#8 a = 0#8 := (gfmul_comm 0#8 a).trans (gfmul_zero a)

theorem one_gfmul (a : Byte) : gfmul 1#8 a = a := (gfmul_comm 1#8 a).trans (gfmul_one a)

/-! ### The commands -/

/-- Settles O29: SBOX is a byte result with a plain opcode, and the corner values are read off the table. -/
theorem sboxCommand : Obligations.SboxCommand :=
  ⟨fun s => congrArg Host.Outcome.next (complete_writeAux_zextByte s _), onlyWordOf_encode .sbox rfl,
    by decide, by decide, by decide⟩

/-- Settles O30: as for SBOX, with `invSbox_sbox` for the inverse law. -/
theorem invSboxCommand : Obligations.InvSboxCommand :=
  ⟨fun s => congrArg Host.Outcome.next (complete_writeAux_zextByte s _), onlyWordOf_encode .invSbox rfl,
    by decide, by decide, invSbox_sbox, by decide⟩

/-- Settles O31: as for SBOX, with the laws of the multiplier for the corner cases. -/
theorem gfMulCommand : Obligations.GfMulCommand :=
  ⟨fun s => congrArg Host.Outcome.next (complete_writeAux_zextByte s _), onlyWordOf_encode .gfMul rfl,
    fun a => ⟨gfmul_zero a, zero_gfmul a, gfmul_one a, one_gfmul a⟩, by decide, by decide, gfmul_comm, by decide⟩

end Sys2Proof.Machine
end

section
/-! SUPPORT. The family of 42_key_schedule.md: the key words of the expansion, and the words of an indexed command. The
recurrence of R134 on the finished store is `readWord_keyExpansion`. -/

namespace Sys2Proof.Machine

/-- Words 0 to 3 of the expansion are the words of the key, most significant first (R130). -/
theorem readWord_keyExpansion_of_lt (k : Block) (i : Nat) (h : i < 4) : readWord (keyExpansion k) i = col k i := by
  have hc := col_roundKey (keyExpansion k) 0 i h
  rw [roundKey_keyExpansion, Nat.mul_zero, Nat.zero_add] at hc
  exact hc.symm

/-- Settles O33: the words of the finished store are the key, or have their value by R134 from that store. -/
theorem keyExpansionRecurrence : Obligations.KeyExpansionRecurrence := fun k =>
  ⟨readWord_keyExpansion_of_lt k, fun i h4 h => readWord_keyExpansion k i h4 (by omega)⟩

/-- An indexed command has the words with RSV = 0 and its OP, legal when the index is at most 10 (R84, R85). -/
theorem indexedWordsOf_of_opcode (mk : Nibble → Instr) (op : Byte) (hx : indexedOp op = true)
    (ho : ∀ r, (mk r).opcode = op) (hi : ∀ r, (mk r).index = r) : IndexedWordsOf mk op := by
  have word (r : Nibble) : encode (mk r) = 0#4 ++ r ++ op := by rw [encode, ho, hi]
  have legal (r : Nibble) : (mk r).wf = true ↔ r.toNat ≤ 10 := by
    rw [wf_iff, ho, hi, forall_prop_of_true hx]
    exact BitVec.le_def
  refine ⟨word, fun r hr => ?_, fun r hr => ?_, fun c _ hr => (decode_eq_illegal_iff c).2 (.inl hr)⟩
  · rw [← word, decode_encode, if_pos ((legal r).2 hr)]
  · rw [← word, decode_encode, if_neg fun hw => absurd ((legal r).1 hw) (by omega)]

/-- Settles O37: the three cases of the index and key check, with RK(r) as its four words. -/
theorem readRoundKeyCommand : Obligations.ReadRoundKeyCommand :=
  ⟨fun r s => ⟨fun hr => congrArg Host.Outcome.next (requireIndexAndKey_badIndex s _ r hr),
      fun hr hk => congrArg Host.Outcome.next (requireIndexAndKey_missing s _ r hr hk),
      fun hr hk => congrArg Host.Outcome.next (requireIndexAndKey_valid s _ r hr hk)⟩,
    indexedWordsOf_of_opcode .readRoundKey _ rfl (fun _ => rfl) (fun _ => rfl), roundKey_keyExpansion,
    by decide +kernel⟩

end Sys2Proof.Machine
end

section
/-! SUPPORT. The family of 43_round_transforms.md: the single-stage commands on the bytes, cells and columns of ST.
Each shift moves row r by r places, so the laws of the shifts are equations of column numbers modulo 4. -/

namespace Sys2Proof.Machine

/-! ### The byte substitutions -/

/-- Byte by byte, INV_SBOX undoes SBOX (R108). -/
theorem invSubBytes_subBytes (v : Block) : invSubBytes (subBytes v) = v :=
  eq_of_byte _ _ fun i hi => by rw [byte_invSubBytes _ i hi, byte_subBytes v i hi, invSbox_sbox]

/-- Settles O41: both commands write ST only, and the inverse law is that of the tables. -/
theorem subBytesCommands : Obligations.SubBytesCommands :=
  ⟨fun _ => rfl, fun _ => rfl, fun v i hi => ⟨byte_subBytes v i hi, byte_invSubBytes v i hi⟩,
    onlyWordOf_encode .subBytes rfl, onlyWordOf_encode .invSubBytes rfl, invSubBytes_subBytes,
    by decide +kernel⟩

/-! ### The row shifts -/

/-- Row r after two shifts has moved left by 2r places. -/
theorem cell_shiftRows_twice (v : Block) (r c : Nat) (hr : r < 4) (hc : c < 4) :
    cell (shiftRows (shiftRows v)) r c = cell v r ((c + 2 * r) % 4) := by
  rw [cell_shiftRows _ r c hr hc, cell_shiftRows v r _ hr (by omega)]
  exact congrArg (cell v r) (by omega)

/-- Four shifts move row r by 4r places, which is none modulo 4. -/
theorem shiftRows_four_times (v : Block) : shiftRows (shiftRows (shiftRows (shiftRows v))) = v := by
  refine eq_of_cell _ _ fun r c hr hc => ?_
  rw [cell_shiftRows_twice _ r c hr hc, cell_shiftRows_twice v r _ hr (by omega)]
  exact congrArg (cell v r) (by omega)

/-- r places to the right are 3r places to the left, modulo 4. -/
theorem invShiftRows_eq_three_shiftRows (v : Block) : invShiftRows v = shiftRows (shiftRows (shiftRows v)) := by
  refine eq_of_cell _ _ fun r c hr hc => ?_
  rw [cell_invShiftRows v r c hr hc, cell_shiftRows_twice _ r c hr hc, cell_shiftRows v r _ hr (by omega)]
  exact congrArg (cell v r) (by omega)

theorem invShiftRows_shiftRows (v : Block) : invShiftRows (shiftRows v) = v :=
  (invShiftRows_eq_three_shiftRows _).trans (shiftRows_four_times v)

/-- The right shift with the column number of R163, its remainder taken of an integer. -/
theorem cell_invShiftRows_int (v : Block) (r c : Nat) (hr : r < 4) (hc : c < 4) :
    cell (invShiftRows v) r c = cell v r (((c : Int) - (r : Int)) % 4).toNat := by
  rw [cell_invShiftRows v r c hr hc]
  exact congrArg (cell v r) (by omega)

/-- Row 0 moves by no place (R162). -/
theorem cell_shiftRows_zero (v : Block) (c : Nat) (hc : c < 4) : cell (shiftRows v) 0 c = cell v 0 c := by
  rw [cell_shiftRows v 0 c (by omega) hc, Nat.add_zero, Nat.mod_eq_of_lt hc]

/-- The bytes of a column are its cells (R10). -/
theorem wbyte_col (v : Block) (r c : Nat) (hr : r < 4) (hc : c < 4) : wbyte (col v c) r = cell v r c := by
  apply BitVec.eq_of_getLsbD_eq
  intro k hk
  have e : 96 - 32 * c + (24 - 8 * r + k) = 120 - 8 * (4 * c + r) + k := by omega
  have hb : 24 - 8 * r + k < 32 := by omega
  rw [getLsbD_wbyte, getLsbD_col, cell, getLsbD_byte, e, decide_eq_true hb, Bool.true_and]

/-- With four equal columns a cell depends on its row only, so moving along the row changes nothing. -/
theorem shiftRows_of_equal_cols (v : Block) (h : ∀ c, c < 4 → col v c = col v 0) : shiftRows v = v := by
  have row (r c : Nat) (hr : r < 4) (hc : c < 4) : cell v r c = wbyte (col v 0) r := by
    rw [← wbyte_col v r c hr hc, h c hc]
  refine eq_of_cell _ _ fun r c hr hc => ?_
  rw [cell_shiftRows v r c hr hc, row r _ hr (by omega), row r c hr hc]

/-- Settles O42: the laws are those of the column numbers modulo 4. -/
theorem shiftRowsCommands : Obligations.ShiftRowsCommands := by
  refine ⟨fun _ => rfl, fun _ => rfl,
    fun v r c hr hc => ⟨cell_shiftRows v r c hr hc, cell_invShiftRows_int v r c hr hc⟩,
    onlyWordOf_encode .shiftRows rfl, onlyWordOf_encode .invShiftRows rfl, fun v h01 h12 h23 => ?_,
    cell_shiftRows_zero,
    fun v => ⟨shiftRows_four_times v, invShiftRows_shiftRows v, invShiftRows_eq_three_shiftRows v⟩,
    by decide +kernel⟩
  refine shiftRows_of_equal_cols v fun c hc => ?_
  interval_cases c <;> simp only [h01, h12, h23]

/-! ### The round key -/

theorem addRoundKey_addRoundKey (v k : Block) : addRoundKey (addRoundKey v k) k = v :=
  calc v ^^^ k ^^^ k = v ^^^ (k ^^^ k) := BitVec.xor_assoc v k k
    _ = v := by rw [BitVec.xor_self, BitVec.xor_zero]

/-- Settles O44: the three cases of the index and key check, with RK(r) as its four words. -/
theorem addRoundKeyCommand : Obligations.AddRoundKeyCommand :=
  ⟨fun r s => ⟨fun hr => congrArg Host.Outcome.next (requireIndexAndKey_badIndex s _ r hr),
      fun hr hk => congrArg Host.Outcome.next (requireIndexAndKey_missing s _ r hr hk),
      fun hr hk => congrArg Host.Outcome.next (requireIndexAndKey_valid s _ r hr hk)⟩,
    indexedWordsOf_of_opcode .addRoundKey _ rfl (fun _ => rfl) (fun _ => rfl),
    fun v k => ⟨rfl, addRoundKey_addRoundKey v k⟩,
    fun k => BitVec.zero_xor.trans (roundKey_keyExpansion k), by decide +kernel⟩

end Sys2Proof.Machine
end

section
/-! SUPPORT. The family of 44_cipher_sequencer.md: the inverse cipher undoes the cipher round by round, and a run of the
sequencer is an induction over its round boundaries, one ENC or DEC step a boundary. -/

namespace Sys2Proof.Machine

/-! ### The ciphers as functions (R190 to R196) -/

/-- Settles O46: the loops of R194 and R195 have nine rounds, which unfold. -/
theorem cipherWrittenOutByRounds : Obligations.CipherWrittenOutByRounds :=
  ⟨fun _ _ => ⟨rfl, rfl, rfl, rfl⟩, fun _ _ => ⟨rfl, rfl⟩⟩

/-- Row `r` of a column after MixColumns and then InvMixColumns (R164, R165); `cell_invMixColumns_mixColumns` ties it to
the transforms. -/
def unmixedRow (r : Nat) (a0 a1 a2 a3 : Byte) : Byte :=
  circulantRow 0x0E#8 0x0B#8 0x0D#8 0x09#8 r
    (circulantRow 0x02#8 0x03#8 0x01#8 0x01#8 0 a0 a1 a2 a3) (circulantRow 0x02#8 0x03#8 0x01#8 0x01#8 1 a0 a1 a2 a3)
    (circulantRow 0x02#8 0x03#8 0x01#8 0x01#8 2 a0 a1 a2 a3) (circulantRow 0x02#8 0x03#8 0x01#8 0x01#8 3 a0 a1 a2 a3)

theorem cell_invMixColumns_mixColumns (v : Block) (r c : Nat) (hr : r < 4) (hc : c < 4) :
    cell (invMixColumns (mixColumns v)) r c = unmixedRow r (cell v 0 c) (cell v 1 c) (cell v 2 c) (cell v 3 c) := by
  simp only [invMixColumns, mixColumns, unmixedRow, cell_mixWith, hr, hc, Nat.reduceLT]

theorem unmixedRow_xor (r : Nat) (a0 a1 a2 a3 b0 b1 b2 b3 : Byte) :
    unmixedRow r (a0 ^^^ b0) (a1 ^^^ b1) (a2 ^^^ b2) (a3 ^^^ b3) =
      unmixedRow r a0 a1 a2 a3 ^^^ unmixedRow r b0 b1 b2 b3 := by
  simp only [unmixedRow, circulantRow_xor]

/-- The byte `x` if `p`, and 0 otherwise: an entry of a column that is `x` in one row only. -/
def byteIf (p : Prop) [Decidable p] (x : Byte) : Byte := if p then x else 0#8

theorem byteIf_xor (p : Prop) [Decidable p] (x y : Byte) : byteIf p (x ^^^ y) = byteIf p x ^^^ byteIf p y := by
  unfold byteIf
  split_ifs
  · rfl
  · exact BitVec.xor_zero.symm

/-- A column with one nonzero byte comes back: both sides are additive in the byte and agree on the single bits. -/
theorem unmixedRow_byteIf (r j : Nat) (hr : r < 4) (hj : j < 4) (x : Byte) :
    unmixedRow r (byteIf (j = 0) x) (byteIf (j = 1) x) (byteIf (j = 2) x) (byteIf (j = 3) x) = byteIf (j = r) x := by
  have single : ∀ r < 4, ∀ j < 4, ∀ m ∈ singleBits,
      unmixedRow r (byteIf (j = 0) m) (byteIf (j = 1) m) (byteIf (j = 2) m) (byteIf (j = 3) m) = byteIf (j = r) m := by
    decide +kernel
  exact additive_ext (fun x => unmixedRow r (byteIf (j = 0) x) (byteIf (j = 1) x) (byteIf (j = 2) x) (byteIf (j = 3) x))
    (byteIf (j = r)) (fun x y => by simp only [byteIf_xor, unmixedRow_xor]) (byteIf_xor _) (single r hr j hj) x

/-- A column is the XOR of four columns with one nonzero byte each. -/
theorem unmixedRow_eq (r : Nat) (hr : r < 4) (a : Nat → Byte) : unmixedRow r (a 0) (a 1) (a 2) (a 3) = a r := by
  have h (j : Nat) (hj : j < 4) := unmixedRow_byteIf r j hr hj (a j)
  calc unmixedRow r (a 0) (a 1) (a 2) (a 3)
    _ = byteIf (0 = r) (a 0) ^^^ byteIf (1 = r) (a 1) ^^^ byteIf (2 = r) (a 2) ^^^ byteIf (3 = r) (a 3) := by
      rw [← h 0 (by omega), ← h 1 (by omega), ← h 2 (by omega), ← h 3 (by omega)]
      simp [← unmixedRow_xor, byteIf]
    _ = a r := by interval_cases r <;> simp [byteIf]

/-- The matrix of R165 is the inverse of that of R164 (R167). -/
theorem invMixColumns_mixColumns (v : Block) : invMixColumns (mixColumns v) = v :=
  eq_of_cell _ _ fun r c hr hc =>
    (cell_invMixColumns_mixColumns v r c hr hc).trans (unmixedRow_eq r hr fun i => cell v i c)

theorem invSubBytes_invShiftRows_shiftRows_subBytes (v : Block) :
    invSubBytes (invShiftRows (shiftRows (subBytes v))) = v := by
  rw [invShiftRows_shiftRows, invSubBytes_subBytes]

/-- The first AddRoundKey of the inverse cipher takes off the last of the cipher. -/
theorem addRoundKey_finalRound (v k : Block) : addRoundKey (finalRound v k) k = shiftRows (subBytes v) :=
  addRoundKey_addRoundKey _ k

/-- An inverse round takes ShiftRows and SubBytes of the next round off, then this round's key and MixColumns. -/
theorem invRound_fullRound (v k : Block) :
    invRound (shiftRows (subBytes (fullRound v k))) k = shiftRows (subBytes v) := by
  rw [invRound, invSubBytes_invShiftRows_shiftRows_subBytes, fullRound, addRoundKey_addRoundKey,
    invMixColumns_mixColumns]

theorem invFinalRound_addRoundKey (v k : Block) :
    invFinalRound (shiftRows (subBytes (addRoundKey v k))) k = v := by
  rw [invFinalRound, invSubBytes_invShiftRows_shiftRows_subBytes, addRoundKey_addRoundKey]

/-- The inverse cipher undoes the cipher, one round after the other (R196). -/
theorem invCipher_cipher (w : RoundKeyStore) (x : Block) : invCipher w (cipher w x) = x := by
  obtain ⟨-, rounds⟩ := cipherWrittenOutByRounds
  rw [(rounds w _).2, (rounds w x).1]
  simp only [addRoundKey_finalRound, invRound_fullRound, invFinalRound_addRoundKey]

/-! ### One step of the sequencer (R199, R201, R204) -/

/-- Settles O50: an ENC step is `encStep`, whose two arms are `encStep_more` and `encStep_final`. -/
theorem encStepPerformsOneRound : Obligations.EncStepPerformsOneRound := by
  intro s hr hp h1 h10
  have hs := step_of_enc s hr hp (by simp [hp, sequencerLegal, h1, h10])
  refine ⟨fun h9 => ?_, fun hn => ?_⟩
  · have hne : s.rnd ≠ 10#4 := fun h => by simp [h] at h9
    have hadd : s.rnd + 1#4 = BitVec.ofNat 4 (s.rnd.toNat + 1) := by simp [BitVec.ofNat_add]
    rw [hs, encStep_more s hne, hadd]
    rfl
  · rw [hs, encStep_final s (BitVec.eq_of_toNat_eq hn)]
    rfl

/-- Settles O51: a DEC step is `decStep`, whose two arms are `decStep_more` and `decStep_final`. -/
theorem decStepPerformsOneInverseRound : Obligations.DecStepPerformsOneInverseRound := by
  intro s hr hp h9
  have hs := step_of_dec s hr hp (by simp [hp, sequencerLegal, h9])
  refine ⟨fun h1 => ?_, fun hn => ?_⟩
  · have hne : s.rnd ≠ 0#4 := fun h => by simp [h] at h1
    have hsub : s.rnd - 1#4 = BitVec.ofNat 4 (s.rnd.toNat - 1) := by bv_omega
    rw [hs, decStep_more s hne, hsub]
    rfl
  · rw [hs, decStep_final s (BitVec.eq_of_toNat_eq hn)]
    rfl

@[simp] theorem encStep_rnd (s : State) : (encStep s).rnd = if s.rnd = 10#4 then 0#4 else s.rnd + 1#4 := by
  unfold encStep; split_ifs <;> simp
@[simp] theorem decStep_rnd (s : State) : (decStep s).rnd = if s.rnd = 0#4 then 0#4 else s.rnd - 1#4 := by
  unfold decStep; split_ifs <;> simp

/-- The next (PHASE, RND) of a cipher step is that of any other state with the same (PHASE, RND) (R204). -/
theorem sequencer_congr {s s' : State} (hr : s.ports.rst = false) (hr' : s'.ports.rst = false)
    (hs : s.phase = .enc ∨ s.phase = .dec) (hl : sequencerLegal s.phase s.rnd = true) (hp : s'.phase = s.phase)
    (hn : s'.rnd = s.rnd) : ∃ t t', step s = .next t ∧ step s' = .next t' ∧ t'.phase = t.phase ∧ t'.rnd = t.rnd := by
  have hl' : sequencerLegal s'.phase s'.rnd = true := by rw [hp, hn, hl]
  obtain h | h := hs
  · exact ⟨_, _, step_of_enc s hr h hl, step_of_enc s' hr' (hp.trans h) hl', by simp [hp, hn], by simp [hn]⟩
  · exact ⟨_, _, step_of_dec s hr h hl, step_of_dec s' hr' (hp.trans h) hl', by simp [hp, hn], by simp [hn]⟩

/-! ### A run over its boundaries (R197) -/

/-- A multi-cycle command at the coming edge: edge E0 leads to `b 0`, each busy edge from one boundary to the next, and
edge E(k+1) from `b k` to the idle state `t`; `encrypt_boundaryRun` and `decrypt_boundaryRun` give the instances. -/
structure BoundaryRun (s : State) (k : Nat) (b : Nat → State) (t : State) : Prop where
  accept : step s = .next (b 0)
  round : ∀ n < k, (b n).ports.rst = false → step (b n) = .next (b (n + 1))
  last : (b k).ports.rst = false → step (b k) = .next t
  drive : ∀ n, (b n).drive = s.drive.drop (n + 1)
  busy : ∀ n, (b n).phase ≠ .idle
  idle : t.phase = .idle

section
variable {s t : State} {k : Nat} {b : Nat → State}

/-- After edge En, with no reset up to it, the state is the boundary `b n`. -/
theorem BoundaryRun.boundary (h : BoundaryRun s k b t) (n : Nat) (hn : n ≤ k) (hr : NoReset (n + 1) s) :
    runEdges (n + 1) s = .next (b n) := by
  induction n with
  | zero => exact (runEdges_succ 0 s _ h.accept).trans (runEdges_zero _)
  | succ n ih =>
    rw [runEdges_snoc _ _ _ (ih (by omega) (hr.mono _ _ _ (by omega)))]
    exact h.round n hn (hr.after _ _ _ _ (by omega) (h.drive n))

theorem BoundaryRun.result (h : BoundaryRun s k b t) (hr : NoReset (k + 2) s) : runEdges (k + 2) s = .next t := by
  rw [runEdges_snoc _ _ _ (h.boundary k (by omega) (hr.mono _ _ _ (by omega)))]
  exact h.last (hr.after _ _ _ _ (by omega) (h.drive k))

/-- The boundaries are busy and the state after them is idle (R290). -/
theorem BoundaryRun.busyExactly (h : BoundaryRun s k b t) (hr : NoReset (k + 2) s) : BusyExactly (k + 1) s := by
  intro n hn
  obtain hlt | rfl := Nat.lt_or_eq_of_le hn
  · have hbusy := h.busy n
    exact ⟨b n, h.boundary n (by omega) (hr.mono _ _ _ (by omega)), by simp only [hbusy, false_iff]; omega⟩
  · exact ⟨t, h.result hr, by simp only [h.idle]⟩

end

/-! ### The ENCRYPT run -/

/-- The state after edge En of an ENCRYPT accepted in `s`, for n = 0 to 9 (R197). -/
def encBoundary (s : State) (n : Nat) : State :=
  { s with
    st := (List.range' 1 n).foldl (fun v r => fullRound v (roundKey s.w r)) (s.ports.din ^^^ roundKey s.w 0),
    phase := .enc, rnd := BitVec.ofNat 4 (n + 1), done := false, drive := s.drive.drop (n + 1) }

/-- The state after edge E10 of an ENCRYPT accepted in `s` (R197). -/
def encResult (s : State) : State :=
  { s with st := cipher s.w s.ports.din, phase := .idle, rnd := 0#4, done := true, drive := s.drive.drop 11 }

theorem exec_encrypt_valid (s : State) (hk : s.kv = true) : exec .encrypt s =
    .next { s with st := s.ports.din ^^^ roundKey s.w 0, phase := .enc, rnd := 1#4, done := false } :=
  congrArg Host.Outcome.next (requireKey_valid s _ hk)

theorem step_encrypt (s : State) (ha : Accepts s 0x0002#16) (hk : s.kv = true) :
    step s = .next (encBoundary s 0) := by
  rw [step_of_command s _ _ .encrypt ha (.inl (by decide)) (exec_encrypt_valid s hk), encBoundary, List.drop_one]
  rfl

theorem encBoundary_rnd (s : State) (n : Nat) (hn : n ≤ 9) : (encBoundary s n).rnd.toNat = n + 1 := by
  rw [encBoundary, BitVec.toNat_ofNat]
  omega

theorem step_encBoundary (s : State) (n : Nat) (hn : n < 9) (hr : (encBoundary s n).ports.rst = false) :
    step (encBoundary s n) = .next (encBoundary s (n + 1)) := by
  have hrnd := encBoundary_rnd s n (by omega)
  obtain ⟨more, -⟩ := encStepPerformsOneRound _ hr rfl (by omega) (by omega)
  rw [more (by omega), hrnd]
  simp [encBoundary, List.range'_1_concat, Nat.add_comm 1 n]

theorem step_encBoundary_final (s : State) (hr : (encBoundary s 9).ports.rst = false) :
    step (encBoundary s 9) = .next (encResult s) := by
  have hrnd := encBoundary_rnd s 9 (by omega)
  obtain ⟨-, final⟩ := encStepPerformsOneRound _ hr rfl (by omega) (by omega)
  rw [final hrnd, encResult, ← List.tail_drop]
  rfl

theorem encrypt_boundaryRun (s : State) (ha : Accepts s 0x0002#16) (hk : s.kv = true) :
    BoundaryRun s 9 (encBoundary s) (encResult s) where
  accept := step_encrypt s ha hk
  round := step_encBoundary s
  last := step_encBoundary_final s
  drive _ := rfl
  busy _ := Phase.noConfusion
  idle := rfl

/-! ### The DECRYPT run -/

/-- The state after edge En of a DECRYPT accepted in `s`, for n = 0 to 9 (R197). -/
def decBoundary (s : State) (n : Nat) : State :=
  { s with
    st := ([9, 8, 7, 6, 5, 4, 3, 2, 1].take n).foldl (fun v r => invRound v (roundKey s.w r))
      (s.ports.din ^^^ roundKey s.w 10),
    phase := .dec, rnd := BitVec.ofNat 4 (9 - n), done := false, drive := s.drive.drop (n + 1) }

/-- The state after edge E10 of a DECRYPT accepted in `s` (R197). -/
def decResult (s : State) : State :=
  { s with st := invCipher s.w s.ports.din, phase := .idle, rnd := 0#4, done := true, drive := s.drive.drop 11 }

theorem exec_decrypt_valid (s : State) (hk : s.kv = true) : exec .decrypt s =
    .next { s with st := s.ports.din ^^^ roundKey s.w 10, phase := .dec, rnd := 9#4, done := false } :=
  congrArg Host.Outcome.next (requireKey_valid s _ hk)

theorem step_decrypt (s : State) (ha : Accepts s 0x0003#16) (hk : s.kv = true) :
    step s = .next (decBoundary s 0) := by
  rw [step_of_command s _ _ .decrypt ha (.inl (by decide)) (exec_decrypt_valid s hk), decBoundary, List.drop_one]
  rfl

theorem decBoundary_rnd (s : State) (n : Nat) : (decBoundary s n).rnd.toNat = 9 - n := by
  rw [decBoundary, BitVec.toNat_ofNat]
  omega

/-- The inverse loop uses the round keys in the order 9 down to 1 (R195). -/
theorem take_succ_inverseRounds : ∀ n < 9,
    [9, 8, 7, 6, 5, 4, 3, 2, 1].take (n + 1) = [9, 8, 7, 6, 5, 4, 3, 2, 1].take n ++ [9 - n] := by
  decide

theorem step_decBoundary (s : State) (n : Nat) (hn : n < 9) (hr : (decBoundary s n).ports.rst = false) :
    step (decBoundary s n) = .next (decBoundary s (n + 1)) := by
  have hrnd := decBoundary_rnd s n
  obtain ⟨more, -⟩ := decStepPerformsOneInverseRound _ hr rfl (by omega)
  rw [more (by omega), hrnd]
  simp [decBoundary, take_succ_inverseRounds n hn, Nat.sub_sub]

theorem step_decBoundary_final (s : State) (hr : (decBoundary s 9).ports.rst = false) :
    step (decBoundary s 9) = .next (decResult s) := by
  have hrnd := decBoundary_rnd s 9
  obtain ⟨-, final⟩ := decStepPerformsOneInverseRound _ hr rfl (by omega)
  rw [final hrnd, decResult, ← List.tail_drop]
  rfl

theorem decrypt_boundaryRun (s : State) (ha : Accepts s 0x0003#16) (hk : s.kv = true) :
    BoundaryRun s 9 (decBoundary s) (decResult s) where
  accept := step_decrypt s ha hk
  round := step_decBoundary s
  last := step_decBoundary_final s
  drive _ := rfl
  busy _ := Phase.noConfusion
  idle := rfl

/-! ### The statements about runs (R197, R198, R200, R204) -/

/-- Settles O52: the boundaries and the result of the two runs. -/
theorem roundBoundariesOfBothDirections : Obligations.RoundBoundariesOfBothDirections :=
  ⟨fun s n ha hk => (encrypt_boundaryRun s ha hk).boundary n, fun s ha hk => (encrypt_boundaryRun s ha hk).result,
    fun s n ha hk => (decrypt_boundaryRun s ha hk).boundary n, fun s ha hk => (decrypt_boundaryRun s ha hk).result⟩

/-- Settles O53: the counter's next value by `sequencer_congr`, the busy edges from the boundaries of the runs. -/
theorem sequencerReadsOnlyItsCounter : Obligations.SequencerReadsOnlyItsCounter :=
  ⟨fun _ _ => sequencer_congr, fun s ha hk => ha.elim (fun ha => (encrypt_boundaryRun s ha hk).busyExactly)
    fun ha => (decrypt_boundaryRun s ha hk).busyExactly⟩

/-- Settles O48: the accept edge by the key check, the run by its boundaries, the vector of T1 by evaluation. -/
theorem encryptCommand : Obligations.EncryptCommand :=
  ⟨exec_encrypt_valid, fun s hk => congrArg Host.Outcome.next (requireKey_missing s _ hk),
    onlyWordOf_encode .encrypt rfl,
    fun s ha hk hr => have h := encrypt_boundaryRun s ha hk; ⟨h.busyExactly hr, _, h.result hr, rfl⟩,
    by decide +kernel⟩

/-- Settles O49: as for ENCRYPT, with `invCipher_cipher`; the two ciphers differ on the zero block under the zero
store. -/
theorem decryptCommand : Obligations.DecryptCommand :=
  ⟨exec_decrypt_valid, fun s hk => congrArg Host.Outcome.next (requireKey_missing s _ hk),
    onlyWordOf_encode .decrypt rfl,
    fun s ha hk hr => have h := decrypt_boundaryRun s ha hk; ⟨h.busyExactly hr, _, h.result hr, rfl⟩,
    invCipher_cipher, ⟨Vector.replicate 44 0#32, 0#128, by decide +kernel⟩,
    by decide +kernel⟩

end Sys2Proof.Machine
end

section
/-! SUPPORT. The family of 45_control.md: NOP, LOAD_STATE and CLEAR_STATUS. A command other than CLEAR_STATUS keeps ERR
at 1, because an error only sets it and a performed command does not write it. -/

namespace Sys2Proof.Machine

/-- Settles O55: NOP completes and has a plain opcode. -/
theorem nopCommand : Obligations.NopCommand :=
  ⟨fun _ => rfl, onlyWordOf_encode .nop rfl, by decide⟩

/-- An accepted LOAD_STATE performs it, and the edge passes (R43, R221). -/
theorem step_of_loadState (s : State) (ha : Accepts s 0x0004#16) :
    step s = .next (s.writeSt s.ports.din).complete.advance :=
  step_of_command s _ _ .loadState ha (.inl (by decide)) rfl

/-- Settles O56: `din` reaches ST as it is, and the example's cells are read off the block. -/
theorem loadStateCommand : Obligations.LoadStateCommand :=
  ⟨fun _ => rfl, onlyWordOf_encode .loadState rfl, fun s ha => ⟨_, step_of_loadState s ha, rfl⟩,
    by decide, by decide, by decide⟩

/-- With no error recorded there is nothing to clear. -/
theorem clearError_of_noError (s : State) (he : s.err = false) (hc : s.ecode = .noError) : s.clearError = s := by
  rw [State.clearError, ← he, ← hc]

/-- A command that lowers ERR is CLEAR_STATUS (R222, R247). -/
theorem eq_clearStatus_of_err_lowered (i : Instr) (s t : State) (h : exec i s = .next t) (hs : s.err = true)
    (ht : t.err = false) : i = .clearStatus := by
  cases he : commandError i s.kv with
  | some e =>
    cases h.symm.trans (exec_of_commandError i s e he)
    simp at ht
  | none =>
    obtain ⟨u, hu, hp⟩ := exec_performed i s he
    cases h.symm.trans hu
    obtain ⟨hkept, -⟩ | hi := hp.error_flags
    · simp [hkept, hs] at ht
    · exact hi

/-- With no error recorded the fields ECODE and ERR of STATUS are 0 (R30). -/
theorem extractLsb'_status_of_noError (s : State) (he : s.err = false) (hc : s.ecode = .noError) :
    s.status.extractLsb' 3 3 = 0#3 := by
  obtain ⟨fields, -⟩ := statusWordFields
  obtain ⟨-, -, -, herr, hecode, -⟩ := fields s
  calc s.status.extractLsb' 3 3 = s.status.extractLsb' 4 2 ++ s.status.extractLsb' 3 1 :=
        (BitVec.extractLsb'_append_extractLsb'_eq_extractLsb' (show 4 = 3 + 1 from rfl)).symm
    _ = 0#2 ++ 0#1 := by rw [hecode, herr, he, hc]; rfl
    _ = 0#3 := rfl

/-- Settles O57: the frame by `clearError_of_noError`, the ill-formed word by the error it raises, and STATUS by
its fields. -/
theorem clearStatusCommand : Obligations.ClearStatusCommand := by
  refine ⟨fun _ => rfl, onlyWordOf_encode .clearStatus rfl, fun s he hc => ?_,
    fun s ha => error_flags_of_errorCause s _ _ ha (errorCause_of_illegal _ _ (by decide)),
    eq_clearStatus_of_err_lowered, fun s t h => ?_⟩
  · exact congrArg (fun u : State => Host.Outcome.next u.complete) (clearError_of_noError s he hc)
  · cases h
    exact extractLsb'_status_of_noError _ rfl rfl

end Sys2Proof.Machine
end

section
/-! SUPPORT. The family of 60_exceptions.md: no error disables the core. Whether a command raises an error depends on KV
and not on the flags, and neither recording the error nor performing the command reads ERR, ECODE or DONE for another
register. -/

namespace Sys2Proof.Machine

/-- A step that lowers ERR is a reset or the accept of CLEAR_STATUS: the third way to change ERR, an error, sets it
(R29, R247). -/
theorem rst_or_clearStatus_of_err_lowered (s t : State) (h : step s = .next t) (hs : s.err = true)
    (ht : t.err = false) : s.ports.rst = true ∨ Accepts s 0x0010#16 := by
  obtain ⟨sets, -, -, ways⟩ := errorFlagsChangeInThreeWays s t h
  obtain hr | hc | ⟨c, e, ha, he⟩ := ways (.inl (by simp [hs, ht]))
  · exact .inl hr
  · exact .inr hc
  · obtain ⟨herr, -⟩ := sets c e ha he
    simp [ht] at herr

/-- A command does the same to every register but ERR and ECODE whatever the flags are (R247). DONE is among those
registers, because every command writes it and none reads it. -/
theorem exec_withFlags (i : Instr) (s : State) (d e : Bool) (c : ErrorCode) :
    ∃ t t', exec i s = .next t ∧ exec i { s with done := d, err := e, ecode := c } = .next t' ∧
      t' = { t with err := t'.err, ecode := t'.ecode } := by
  cases he : commandError i s.kv with
  | some code => exact ⟨_, _, exec_of_commandError i s code he, exec_of_commandError i _ code he, rfl⟩
  | none =>
    cases i with
    | encrypt | decrypt =>
      have hk := commandError_encrypt_none _ he
      exact ⟨_, _, congrArg Host.Outcome.next (requireKey_valid s _ hk),
        congrArg Host.Outcome.next (requireKey_valid { s with done := d, err := e, ecode := c } _ hk), rfl⟩
    | addRoundKey idx | readRoundKey idx =>
      exact ⟨_, _, congrArg Host.Outcome.next (requireIndexAndKey_of_noError s _ idx he),
        congrArg Host.Outcome.next
          (requireIndexAndKey_of_noError { s with done := d, err := e, ecode := c } _ idx he), rfl⟩
    | _ => exact ⟨_, _, rfl, rfl, rfl⟩

/-- Settles O24: the steps that lower ERR, and the flags that no command reads for another register. -/
theorem errorsNeitherClearThemselvesNorDisable : Obligations.ErrorsNeitherClearThemselvesNorDisable :=
  ⟨rst_or_clearStatus_of_err_lowered, exec_withFlags⟩

end Sys2Proof.Machine
end

section
/-! SUPPORT. The family of 70_reset_and_hazards.md: the outputs at a reset edge and after it. -/

namespace Sys2Proof.Machine

/-- At a reset edge the core is not ready, in any phase, so it accepts no command there (R21, R270). -/
theorem cmdReady_of_rst (s : State) (h : s.ports.rst = true) : s.cmdReady = false := by
  rw [Bool.eq_false_iff, Ne, cmdReady_iff]
  rintro ⟨-, hr⟩
  simp [h] at hr

/-- The reset value of every field of STATUS is encoded as 0 (R30, R271). -/
theorem status_reset : State.reset.status = 0x0000#16 := by decide

/-- STATUS reads neither W nor the ports, the only parts in which two states after a reset edge differ (R30, R271). -/
theorem status_resetEdge_advance (s : State) : s.resetEdge.advance.status = State.reset.status := rfl

/-- Settles O11: the edge is `step_of_rst`, and the outputs after it are functions of the reset values. -/
theorem resetEdgeValues : Obligations.ResetEdgeValues := fun s hrst =>
  ⟨cmdReady_of_rst s hrst, s.resetEdge.advance, step_of_rst s hrst, rfl, fun hnext =>
    ⟨(status_resetEdge_advance s).trans status_reset, rfl, rfl, (cmdReady_iff _).2 ⟨rfl, hnext⟩⟩⟩

end Sys2Proof.Machine
end

section
/-! SUPPORT. The encoder and the decoder as inverses, and the legal words listed: a word that decodes to a command is
that command's encoding, so the words are the encodings of the commands. -/

namespace Sys2Proof

/-- A word decodes to a legal command exactly when it is the encoding of one (R84, R85). -/
theorem decode_eq_ok_iff (c : Cmd) (i : Instr) : decode c = .ok i ↔ i.wf = true ∧ encode i = c := by
  constructor
  · intro h
    obtain rfl := encode_of_decode c i (.inl h)
    rw [decode_encode] at h
    split_ifs at h with hw
    exact ⟨hw, rfl⟩
  · rintro ⟨hw, rfl⟩
    rw [decode_encode, if_pos hw]

/-- A word decodes to a command with a bad index exactly when it is the encoding of one (R84, R85). -/
theorem decode_eq_badIndex_iff (c : Cmd) (i : Instr) : decode c = .badIndex i ↔ i.wf = false ∧ encode i = c := by
  constructor
  · intro h
    obtain rfl := encode_of_decode c i (.inr h)
    rw [decode_encode] at h
    split_ifs at h with hw
    exact ⟨by simpa using hw, rfl⟩
  · rintro ⟨hw, rfl⟩
    rw [decode_encode, hw]
    rfl

/-- Settles O2: each result of the decoder names the command whose encoding the word is. -/
theorem decodeInvertsEncode : Obligations.DecodeInvertsEncode :=
  ⟨fun i hw => (decode_eq_ok_iff _ i).2 ⟨hw, rfl⟩, fun i hw => (decode_eq_badIndex_iff _ i).2 ⟨hw, rfl⟩,
    fun c i => (decode_eq_ok_iff c i).1, fun c i => (decode_eq_badIndex_iff c i).1⟩

/-- The 37 legal commands (R85); `mem_legalCommands` ties the list to `Instr.wf`. -/
def legalCommands : List Instr :=
  [Instr.nop, .loadKey, .encrypt, .decrypt, .loadState, .subBytes, .invSubBytes, .shiftRows, .invShiftRows, .mixColumns,
    .invMixColumns, .sbox, .invSbox, .gfMul, .clearStatus] ++
  (List.range 11).map (fun n => Instr.addRoundKey (BitVec.ofNat 4 n)) ++
  (List.range 11).map (fun n => Instr.readRoundKey (BitVec.ofNat 4 n))

/-- The ten commands with a bad index (R85); `mem_badIndexCommands` ties the list to `Instr.wf`. -/
def badIndexCommands : List Instr :=
  (List.range' 11 5).map (fun n => Instr.addRoundKey (BitVec.ofNat 4 n)) ++
  (List.range' 11 5).map (fun n => Instr.readRoundKey (BitVec.ofNat 4 n))

theorem mem_legalCommands (i : Instr) : i ∈ legalCommands ↔ i.wf = true := by
  cases i with
  | addRoundKey idx | readRoundKey idx => revert idx; decide
  | _ => decide

theorem mem_badIndexCommands (i : Instr) : i ∈ badIndexCommands ↔ i.wf = false := by
  cases i with
  | addRoundKey idx | readRoundKey idx => revert idx; decide
  | _ => decide

theorem exists_decode_eq_ok_iff (c : Cmd) : (∃ i, decode c = .ok i) ↔ c ∈ legalCommands.map encode := by
  simp only [decode_eq_ok_iff, List.mem_map, mem_legalCommands]

theorem exists_decode_eq_badIndex_iff (c : Cmd) : (∃ i, decode c = .badIndex i) ↔ c ∈ badIndexCommands.map encode := by
  simp only [decode_eq_badIndex_iff, List.mem_map, mem_badIndexCommands]

/-- The decoder has three results (R84). -/
theorem decode_eq_illegal_iff_no_command (c : Cmd) :
    decode c = .illegal ↔ ¬ ((∃ i, decode c = .ok i) ∨ ∃ i, decode c = .badIndex i) := by
  cases decode c <;> simp

/-- Settles O3: the lists are the encodings of the legal commands and of those with a bad index. -/
theorem legalAndBadIndexWordsListed : Obligations.LegalAndBadIndexWordsListed := fun c => by
  refine ⟨exists_decode_eq_ok_iff c, exists_decode_eq_badIndex_iff c, ?_⟩
  rw [decode_eq_illegal_iff_no_command, exists_decode_eq_ok_iff, exists_decode_eq_badIndex_iff, ← List.mem_append]
  rfl

/-- Settles O4: the decoder evaluated on the eleven words. -/
theorem writtenOutWordsDecode : Obligations.WrittenOutWordsDecode := by
  unfold Obligations.WrittenOutWordsDecode
  decide

end Sys2Proof
end

section
/-! SUPPORT. The invariant: reset establishes it, every case of an edge keeps each of its clauses, and a state that has
it always answers. -/

namespace Sys2Proof.Machine

/-! ### When a step answers (R35, R40) -/

/-- A running edge with a pair of R35 answers a next state. -/
theorem exists_next_of_sequencerLegal (s : State) (hr : s.ports.rst = false)
    (hl : sequencerLegal s.phase s.rnd = true) : ∃ t, step s = .next t := by
  cases hp : s.phase with
  | kexp => exact ⟨_, step_of_kexp s hr hp hl⟩
  | enc => exact ⟨_, step_of_enc s hr hp hl⟩
  | dec => exact ⟨_, step_of_dec s hr hp hl⟩
  | idle =>
    have hn : s.rnd = 0#4 := (sequencerLegal_idle _).1 (hp ▸ hl)
    cases hv : s.ports.cmdValid with
    | false => exact ⟨_, step_of_idle s hr hp hn hv⟩
    | true =>
      obtain ⟨t, -, -, ht⟩ := step_of_accept s (accepts_of_idle hr hp hn hv)
      exact ⟨_, ht⟩

theorem exists_next (s : State) (h : s.ports.rst = true ∨ sequencerLegal s.phase s.rnd = true) :
    ∃ t, step s = .next t := by
  cases hr : s.ports.rst with
  | true => exact ⟨_, step_of_rst s hr⟩
  | false => exact exists_next_of_sequencerLegal s hr (by simpa [hr] using h)

/-- Settles O13: the fault is `step_of_illegalPair`, and every other edge has a case that answers. -/
theorem onlyStatesOutsideTheInvariantFault : Obligations.OnlyStatesOutsideTheInvariantFault := fun s =>
  ⟨fun ⟨hr, hl⟩ => step_of_illegalPair s hr hl, exists_next s⟩

/-- Settles O8: the accept of a command is `step_of_command`, and exec leaves the drive alone. -/
theorem stepRunsTheDecodedCommand : Obligations.StepRunsTheDecodedCommand := fun s c i ha hd => by
  obtain ⟨t, he, hdrive⟩ := exec_next i s
  exact ⟨t, he, hdrive, by rw [step_of_command s t c i ha hd he, State.advance, hdrive]⟩

/-- Settles O12: the edge is a reset edge, after which the core is idle and the held command stands on the ports. -/
theorem commandHeldThroughResetIsAcceptedAfterIt : Obligations.CommandHeldThroughResetIsAcceptedAfterIt := by
  intro s p q rest hd hp hq hv
  have hrst : s.ports.rst = true := by rw [State.ports, hd]; exact hp
  have hdrive : s.resetEdge.advance.drive = q :: rest := by simp [hd]
  have hports : s.resetEdge.advance.ports = q := by rw [State.ports, hdrive]; rfl
  exact ⟨_, step_of_rst s hrst, (accepts_iff _ _).2 ⟨rfl, rfl, by rw [hports, hq], by rw [hports, hv], by rw [hports]⟩,
    hdrive, rfl, rfl⟩

/-! ### The invariant after reset (R271, R273) -/

theorem inv_resetEdge_advance (s : State) : Inv s.resetEdge.advance where
  sequencer := rfl
  expanding h := by cases h
  ciphering h := by simp at h
  running h := absurd rfl h
  errorCode := by simp
  schedule h := by cases h

/-- Settles O14: the reset state is what a reset edge leaves of itself. -/
theorem invariantHoldsAfterReset : Obligations.InvariantHoldsAfterReset :=
  ⟨inv_resetEdge_advance State.reset, fun s hr => ⟨_, step_of_rst s hr, inv_resetEdge_advance s⟩⟩

/-! ### Every step keeps each clause of the invariant -/

@[simp] theorem kexpStep_rnd (s : State) : (kexpStep s).rnd = if s.rnd = 10#4 then 0#4 else s.rnd + 1#4 := by
  unfold kexpStep; split_ifs <;> simp

/-- KEXP and ENC count up from 1 to 10 (R141, R199). -/
theorem toNat_add_one_of_counting_up (r : Nibble) (h10 : r.toNat ≤ 10) (hn : r ≠ 10#4) :
    (r + 1#4).toNat = r.toNat + 1 ∧ r.toNat < 10 := by
  constructor <;> bv_omega

/-- DEC counts down from 9 to 0 (R201). -/
theorem toNat_sub_one_of_counting_down (r : Nibble) (hn : r ≠ 0#4) : (r - 1#4).toNat = r.toNat - 1 := by
  bv_omega

/-- The pairs of R35 lead to pairs of R35. -/
theorem sequencerLegal_after_step {s t : State} (hi : Inv s) (h : step s = .next t) :
    sequencerLegal t.phase t.rnd = true := by
  obtain ⟨u, hu, rfl⟩ := edgeCase_of_step s t h
  rw [State.advance_phase, State.advance_rnd]
  have hl := hi.sequencer
  cases hu with
  | reset => rfl
  | kexp _ hp | enc _ hp =>
    obtain ⟨-, h10⟩ : 1 ≤ s.rnd.toNat ∧ s.rnd.toNat ≤ 10 := by simpa [hp, sequencerLegal] using hl
    by_cases hn : s.rnd = 10#4
    · simp [hn, sequencerLegal]
    · obtain ⟨hadd, hlt⟩ := toNat_add_one_of_counting_up _ h10 hn
      simp [hn, hp, sequencerLegal, hadd, hlt]
  | dec _ hp =>
    have h9 : s.rnd.toNat ≤ 9 := by simpa [hp, sequencerLegal] using hl
    by_cases hn : s.rnd = 0#4
    · simp [hn, sequencerLegal]
    · have hsub := toNat_sub_one_of_counting_down _ hn
      simp only [decStep_phase, decStep_rnd, hn, if_false, hp, sequencerLegal, hsub, decide_eq_true_eq]
      omega
  | quiet | error => exact hl
  | command _ _ _ _ ht =>
    cases ht with
    | loadKey | encrypt | decrypt => rfl
    | _ => exact hl

/-- A key just accepted is the first round key of its own schedule (R130, R140). -/
theorem scheduleUpTo_writeKeyWords (w : RoundKeyStore) (k : Block) : ScheduleUpTo (writeKeyWords w k) 4 := by
  intro i hi
  rw [roundKey_writeKeyWords, readWord_keyExpansion_of_lt k i hi, readWord_writeKeyWords, if_pos hi]

/-- While a key expands KV is 0, and each step adds one round key to the words of its schedule. -/
theorem expanding_after_step {s t : State} (hi : Inv s) (h : step s = .next t) (hk : t.phase = .kexp) :
    t.kv = false ∧ ScheduleUpTo t.w (4 * t.rnd.toNat) := by
  obtain ⟨u, hu, rfl⟩ := edgeCase_of_step s t h
  simp only [State.advance_phase, State.advance_kv, State.advance_w, State.advance_rnd] at hk ⊢
  cases hu with
  | reset => cases hk
  | kexp _ hp h1 h10 =>
    obtain ⟨hkv, hw⟩ := hi.expanding hp
    have hn : s.rnd ≠ 10#4 := fun hn => by simp [hn] at hk
    obtain ⟨hadd, -⟩ := toNat_add_one_of_counting_up _ h10 hn
    simp only [kexpStep_kv, kexpStep_rnd, hn, if_false, kexpStep_w, hadd]
    exact ⟨hkv, scheduleUpTo_expandRoundKey s.w _ h1 h10 hw⟩
  | enc _ hp | dec _ hp =>
    simp only [encStep_phase, decStep_phase, hp] at hk
    split_ifs at hk
  | quiet | error => exact hi.expanding hk
  | command _ _ _ _ ht =>
    cases ht with
    | loadKey => exact ⟨rfl, scheduleUpTo_writeKeyWords s.w s.ports.keyIn⟩
    | encrypt | decrypt => cases hk
    | _ => exact hi.expanding hk

/-- A cipher command starts only with KV = 1, and its steps keep KV. -/
theorem ciphering_after_step {s t : State} (hi : Inv s) (h : step s = .next t) (hc : t.phase = .enc ∨ t.phase = .dec) :
    t.kv = true := by
  obtain ⟨u, hu, rfl⟩ := edgeCase_of_step s t h
  rw [State.advance_phase] at hc
  rw [State.advance_kv]
  cases hu with
  | reset => simp at hc
  | kexp _ hp =>
    rw [kexpStep_phase, hp] at hc
    split_ifs at hc <;> simp at hc
  | enc _ hp => exact (encStep_kv s).trans (hi.ciphering (.inl hp))
  | dec _ hp => exact (decStep_kv s).trans (hi.ciphering (.inr hp))
  | quiet | error => exact hi.ciphering hc
  | command _ _ _ _ ht =>
    cases ht with
    | loadKey => simp at hc
    | encrypt _ hk | decrypt _ hk => exact hk
    | _ => exact hi.ciphering hc

/-- DONE falls when a sequence starts and rises when it ends. -/
theorem running_after_step {s t : State} (hi : Inv s) (h : step s = .next t) (hb : t.phase ≠ .idle) :
    t.done = false := by
  obtain ⟨u, hu, rfl⟩ := edgeCase_of_step s t h
  rw [State.advance_phase] at hb
  rw [State.advance_done]
  cases hu with
  | reset => rfl
  | kexp _ hp | enc _ hp | dec _ hp =>
    have hdone := hi.running (by simp [hp])
    simp only [kexpStep_phase, encStep_phase, decStep_phase, kexpStep_done, encStep_done, decStep_done] at hb ⊢
    split_ifs at hb ⊢
    · exact absurd rfl hb
    · exact hdone
  | quiet _ hp => exact absurd hp hb
  | error _ ha => exact absurd ha.idle hb
  | command _ _ ha _ ht =>
    cases ht with
    | loadKey | encrypt | decrypt => rfl
    | _ => exact absurd ha.idle hb

/-- An error has a code (R241). -/
theorem errorCause_ne_noError (c : Cmd) (kv : Bool) : errorCause c kv ≠ some .noError := by
  simp only [errorCause]
  split_ifs <;> simp

/-- ERR and ECODE are written together (R29). -/
theorem errorCode_after_step {s t : State} (hi : Inv s) (h : step s = .next t) :
    t.err = true ↔ t.ecode ≠ .noError := by
  obtain ⟨u, hu, rfl⟩ := edgeCase_of_step s t h
  rw [State.advance_err, State.advance_ecode]
  cases hu with
  | reset => simp
  | kexp | enc | dec => simpa using hi.errorCode
  | quiet => exact hi.errorCode
  | error e _ he =>
    have hne : e ≠ .noError := fun hn => errorCause_ne_noError _ _ (hn ▸ he)
    cases herr : s.err with
    | false => simp [herr, hne]
    | true => simpa [herr] using hi.errorCode
  | command _ _ _ _ ht =>
    cases ht with
    | clearStatus => simp
    | _ => simpa using hi.errorCode

/-- Every step keeps the invariant, clause by clause. -/
theorem Inv.after_step {s t : State} (hi : Inv s) (h : step s = .next t) : Inv t where
  sequencer := sequencerLegal_after_step hi h
  expanding := expanding_after_step hi h
  ciphering := ciphering_after_step hi h
  running := running_after_step hi h
  errorCode := errorCode_after_step hi h
  schedule := schedule_after_step hi h

/-- Settles O15: a state with the invariant answers, and every clause holds after the step. -/
theorem everyStepKeepsTheInvariant : Obligations.EveryStepKeepsTheInvariant := fun s hi => by
  obtain ⟨t, ht⟩ := exists_next s (.inr hi.sequencer)
  exact ⟨t, ht, hi.after_step ht⟩

end Sys2Proof.Machine
end

section
/-! SUPPORT. The unspecified words of W: two states that differ only in them take the same case of the edge, and no case
copies such a word to another register. -/

namespace Sys2Proof.Machine

/-- Two states that differ in W only, and there only while KV = 0, above the words already expanded when a key is
expanding (R62, U2). -/
structure SameButHiddenWords (s s' : State) : Prop where
  registers : s' = { s with w := s'.w }
  valid : s.kv = true → s'.w = s.w
  expanded : s.phase = .kexp → ∀ i, i < 4 * s.rnd.toNat → readWord s'.w i = readWord s.w i

theorem SameButHiddenWords.refl (s : State) : SameButHiddenWords s s :=
  ⟨rfl, fun _ => rfl, fun _ _ _ => rfl⟩

/-- With KV = 0 and no key expanding, W is hidden as a whole. -/
theorem sameButHiddenWords_of_hidden (s : State) (v : RoundKeyStore) (hk : s.kv = false) (hp : s.phase ≠ .kexp) :
    SameButHiddenWords s { s with w := v } :=
  ⟨rfl, fun h => by simp [hk] at h, fun h => absurd h hp⟩

/-- A KEXP step writes the same round key to both stores; the last one makes them equal (R141). -/
theorem SameButHiddenWords.kexpStep_advance {s s' : State} (h : SameButHiddenWords s s') (hp : s.phase = .kexp)
    (h1 : 1 ≤ s.rnd.toNat) (h10 : s.rnd.toNat ≤ 10) :
    SameButHiddenWords (kexpStep s).advance (kexpStep s').advance := by
  have agree : ∀ i, i < 4 * s.rnd.toNat + 4 →
      readWord (expandRoundKey s'.w s.rnd.toNat) i = readWord (expandRoundKey s.w s.rnd.toNat) i :=
    readWord_expandRoundKey_congr s'.w s.w _ h1 (by omega) (h.expanded hp)
  rw [h.registers]
  by_cases hn : s.rnd = 10#4
  · rw [kexpStep_final s hn, kexpStep_final { s with w := s'.w } hn]
    rw [hn] at agree
    exact ⟨rfl, fun _ => eq_of_readWord _ _ agree, fun hk => by cases hk⟩
  · obtain ⟨hadd, -⟩ := toNat_add_one_of_counting_up _ h10 hn
    rw [kexpStep_more s hn, kexpStep_more { s with w := s'.w } hn]
    exact ⟨rfl, fun hk => congrArg (expandRoundKey · s.rnd.toNat) (h.valid hk),
      fun _ i hi => agree i (by simpa [hadd, Nat.mul_add] using hi)⟩

theorem SameButHiddenWords.advance {s s' : State} (h : SameButHiddenWords s s') :
    SameButHiddenWords s.advance s'.advance :=
  ⟨congrArg State.advance h.registers, h.valid, h.expanded⟩

/-- A command that reads W raises an error unless KV = 1 (R62, R242). -/
theorem kv_of_readsKey (i : Instr) (kv : Bool) (hr : i.readsKey = true) (h : commandError i kv = none) :
    kv = true := by
  cases kv with
  | true => rfl
  | false => by_cases hw : i.wf = true <;> simp [commandError, hr, hw] at h

/-- The accept of LOAD_KEY puts the same key in both stores (R140). -/
theorem sameButHiddenWords_loadKey (s : State) (v : RoundKeyStore) (k : Block) :
    SameButHiddenWords (((s.writeStore (writeKeyWords s.w k)).writeKv false).startSequence .kexp 1#4)
      ((({ s with w := v }.writeStore (writeKeyWords v k)).writeKv false).startSequence .kexp 1#4) where
  registers := rfl
  valid h := by cases h
  expanded _ i hi := by
    have h4 : i < 4 := hi
    simp [readWord_writeKeyWords, h4]

/-- With KV = 0 a command copies no word of W to another register. -/
theorem exec_sameButHiddenWords (i : Instr) (s : State) (v : RoundKeyStore) (hk : s.kv = false) (hp : s.phase = .idle) :
    ∃ t t', exec i s = .next t ∧ exec i { s with w := v } = .next t' ∧ SameButHiddenWords t t' := by
  have hidden (t : State) (h : t.kv = s.kv) (h' : t.phase = s.phase) : SameButHiddenWords t { t with w := v } :=
    sameButHiddenWords_of_hidden t v (h.trans hk) (by simp [h', hp])
  cases he : commandError i s.kv with
  | some e =>
    exact ⟨_, _, exec_of_commandError i s e he, exec_of_commandError i { s with w := v } e he, hidden _ rfl rfl⟩
  | none =>
    cases i with
    | encrypt | decrypt | addRoundKey | readRoundKey => simp [kv_of_readsKey _ _ rfl he] at hk
    | loadKey => exact ⟨_, _, rfl, rfl, sameButHiddenWords_loadKey s v _⟩
    | _ => exact ⟨_, _, rfl, rfl, hidden _ rfl rfl⟩

/-- The accept edge of one word in both states, with KV = 0. -/
theorem step_sameButHiddenWords_of_accepts (s : State) (v : RoundKeyStore) (c : Cmd) (hk : s.kv = false)
    (ha : Accepts s c) :
    ∃ t t', step s = .next t ∧ step { s with w := v } = .next t' ∧ SameButHiddenWords t t' := by
  have ha' : Accepts { s with w := v } c := ha
  obtain hd | ⟨i, rfl⟩ := illegal_or_encode c
  · exact ⟨_, _, step_of_illegal s c ha hd, step_of_illegal _ c ha' hd,
      (sameButHiddenWords_of_hidden (s.recordError .illegalCommand) v hk (by simp [ha.idle])).advance⟩
  · obtain ⟨t, t', ht, ht', h⟩ := exec_sameButHiddenWords i s v hk ha.idle
    have hd := decode_encode_or i
    exact ⟨_, _, step_of_command s t _ i ha hd ht, step_of_command _ t' _ i ha' hd ht', h.advance⟩

/-- One edge of both states, in the same case of R40. -/
theorem step_sameButHiddenWords {s s' : State} (hi : Inv s) (h : SameButHiddenWords s s') :
    ∃ t t', step s = .next t ∧ step s' = .next t' ∧ SameButHiddenWords t t' := by
  obtain ⟨t, ht⟩ := exists_next s (.inr hi.sequencer)
  cases hk : s.kv with
  | true =>
    have hs : s' = s := by rw [h.registers, h.valid hk]
    exact ⟨t, t, ht, hs ▸ ht, .refl t⟩
  | false =>
    have hl := hi.sequencer
    cases hr : s.ports.rst with
    | true =>
      rw [h.registers]
      exact ⟨_, _, step_of_rst s hr, step_of_rst { s with w := s'.w } hr,
        sameButHiddenWords_of_hidden s.resetEdge.advance s'.w rfl (by simp)⟩
    | false =>
      cases hp : s.phase with
      | kexp =>
        obtain ⟨h1, h10⟩ : 1 ≤ s.rnd.toNat ∧ s.rnd.toNat ≤ 10 := by simpa [hp, sequencerLegal] using hl
        have hs : step s' = .next (kexpStep s').advance := by
          rw [h.registers]
          exact step_of_kexp { s with w := s'.w } hr hp hl
        exact ⟨_, _, step_of_kexp s hr hp hl, hs, h.kexpStep_advance hp h1 h10⟩
      | enc => simp [hi.ciphering (.inl hp)] at hk
      | dec => simp [hi.ciphering (.inr hp)] at hk
      | idle =>
        have hn : s.rnd = 0#4 := (sequencerLegal_idle _).1 (hp ▸ hl)
        rw [h.registers]
        cases hv : s.ports.cmdValid with
        | false =>
          exact ⟨_, _, step_of_idle s hr hp hn hv, step_of_idle { s with w := s'.w } hr hp hn hv,
            sameButHiddenWords_of_hidden s.advance s'.w hk (by simp [hp])⟩
        | true => exact step_sameButHiddenWords_of_accepts s s'.w _ hk (accepts_of_idle hr hp hn hv)

/-- Settles O39: both states take the same case, and `SameButHiddenWords` holds after it. -/
theorem unspecifiedStoreWordsNeverShow : Obligations.UnspecifiedStoreWordsNeverShow := by
  intro s s' hi _ hs hv hx
  obtain ⟨t, t', ht, ht', h⟩ := step_sameButHiddenWords hi ⟨hs, hv, hx⟩
  exact ⟨t, t', ht, ht', h.registers, h.valid, h.expanded⟩

end Sys2Proof.Machine
end

section
/-! SUPPORT. The schedule in the hardware: a KEXP step writes one round key, LOAD_KEY is a run of ten of them, and the
run leaves the expansion of its key alone. -/

namespace Sys2Proof.Machine

/-! ### The words of the expansion (R130 to R139) -/

/-- The rotation by a byte cuts the word at bit 24 (R131). -/
theorem rotWord_eq_append (w : Word) : rotWord w = w.extractLsb' 0 24 ++ w.extractLsb' 24 8 := by
  apply BitVec.eq_of_getLsbD_eq
  intro i hi
  rw [rotWord, BitVec.getLsbD_rotateLeft, BitVec.getLsbD_append]
  by_cases h : i < 8
  · simp [h]
  · simp [h, hi, show i - 8 < 24 by omega]

/-- Settles O32: the rotation is a cut at bit 24, and the rest is read off the definitions. -/
theorem wordOperationsOfTheSchedule : Obligations.WordOperationsOfTheSchedule :=
  ⟨rotWord_eq_append, fun _ => rfl, by decide, by decide, by decide, fun j h1 h9 => by interval_cases j <;> decide⟩

/-- Word i with i not a multiple of 4: the word four before it XORed with the word before it (R134). -/
theorem readWord_keyExpansion_of_mod_ne (k : Block) (i : Nat) (h4 : 4 ≤ i) (h44 : i < 44) (hm : i % 4 ≠ 0) :
    readWord (keyExpansion k) i =
      readWord (keyExpansion k) (i - 4) ^^^ readWord (keyExpansion k) (i - 1) := by
  rw [readWord_keyExpansion k i h4 h44, expandedWord, if_neg hm]

/-- Settles O34: the expansion has the key as round key 0, so it is injective. -/
theorem keyExpansionByRoundKeys : Obligations.KeyExpansionByRoundKeys := by
  refine ⟨fun k j h1 h10 => ⟨?_, ?_, ?_, ?_⟩, roundKey_keyExpansion, fun k k' h => ?_⟩
  · rw [readWord_keyExpansion k (4 * j) (by omega) (by omega), expandedWord, if_pos (by omega),
      Nat.mul_div_cancel_left j (by omega), rcWord]
  · rw [readWord_keyExpansion_of_mod_ne k (4 * j + 1) (by omega) (by omega) (by omega),
      show 4 * j + 1 - 4 = 4 * j - 3 by omega, Nat.add_sub_cancel]
  · rw [readWord_keyExpansion_of_mod_ne k (4 * j + 2) (by omega) (by omega) (by omega),
      show 4 * j + 2 - 4 = 4 * j - 2 by omega]
    rfl
  · rw [readWord_keyExpansion_of_mod_ne k (4 * j + 3) (by omega) (by omega) (by omega),
      show 4 * j + 3 - 4 = 4 * j - 1 by omega]
    rfl
  · rw [← roundKey_keyExpansion k, h, roundKey_keyExpansion]

/-! ### The KEXP step (R141) -/

/-- A KEXP step with round keys left after it. -/
theorem step_kexp_more (s : State) (hr : s.ports.rst = false) (hp : s.phase = .kexp) (h1 : 1 ≤ s.rnd.toNat)
    (h9 : s.rnd.toNat ≤ 9) : step s =
      .next { s with w := expandRoundKey s.w s.rnd.toNat, rnd := BitVec.ofNat 4 (s.rnd.toNat + 1),
                     drive := s.drive.tail } := by
  have hn : s.rnd ≠ 10#4 := fun h => by simp [h] at h9
  have hadd : s.rnd + 1#4 = BitVec.ofNat 4 (s.rnd.toNat + 1) := by simp [BitVec.ofNat_add]
  rw [step_of_kexp s hr hp (by simp [hp, sequencerLegal, h1]; omega), kexpStep_more s hn, hadd]
  rfl

/-- The last KEXP step. -/
theorem step_kexp_final (s : State) (hr : s.ports.rst = false) (hp : s.phase = .kexp) (h10 : s.rnd.toNat = 10) :
    step s = .next { s with w := expandRoundKey s.w 10, kv := true, phase := .idle, rnd := 0#4, done := true,
                            drive := s.drive.tail } := by
  have hn : s.rnd = 10#4 := BitVec.eq_of_toNat_eq h10
  rw [step_of_kexp s hr hp (by rw [hp, hn]; rfl), kexpStep_final s hn]
  rfl

/-- Settles O36: the store is `expandRoundKey`, whose words are known one by one, and the last step completes the
schedule that the invariant carries. -/
theorem kexpStepWritesOneRoundKey : Obligations.KexpStepWritesOneRoundKey := by
  intro s hr hp h1 h10
  have h0 := readWord_expandRoundKey_zero s.w s.rnd.toNat (by omega)
  have hsucc (n : Nat) := readWord_expandRoundKey_succ s.w s.rnd.toNat n h1 (by omega)
  have w1 := (hsucc 0 (by omega)).trans (congrArg _ h0)
  have w2 := (hsucc 1 (by omega)).trans (congrArg _ w1)
  have w3 := (hsucc 2 (by omega)).trans (congrArg _ w2)
  rw [show 4 * s.rnd.toNat - 3 + 1 = 4 * s.rnd.toNat - 2 by omega] at w2 w3
  rw [show 4 * s.rnd.toNat - 3 + 2 = 4 * s.rnd.toNat - 1 by omega] at w3
  refine ⟨expandRoundKey s.w s.rnd.toNat, fun hj => hj ▸ step_kexp_final s hr hp hj,
    fun hj => step_kexp_more s hr hp h1 (by omega), h0, w1, w2, w3,
    readWord_expandRoundKey_of_ne s.w s.rnd.toNat, fun hi hj => ?_⟩
  obtain ⟨-, hw⟩ := hi.expanding hp
  have h44 := scheduleUpTo_expandRoundKey s.w _ h1 h10 hw
  rw [← roundKey_expandRoundKey s.w _ h1]
  exact eq_keyExpansion_of_scheduleUpTo _ (by simpa [hj] using h44)

/-! ### The schedule while KV = 1 (R142) -/

/-- Settles O38: a changed word of W means the accept of LOAD_KEY or a KEXP step, and no key expands with KV = 1. -/
theorem scheduleIsImmutableWhileKeyValid : Obligations.ScheduleIsImmutableWhileKeyValid := by
  intro s t hi hk h
  by_cases ha : Accepts s 0x0001#16
  · rw [next_unique h (step_of_loadKey s ha)]
    exact .inr ⟨ha, rfl⟩
  refine .inl (eq_of_readWord _ _ fun i _ => ?_)
  by_contra hne
  obtain ⟨-, ⟨hacc, -⟩ | ⟨hp, -⟩⟩ := readWord_changed h hne
  · exact ha hacc
  · obtain ⟨hk0, -⟩ := hi.expanding hp
    simp [hk] at hk0

end Sys2Proof.Machine
end

section
/-! SUPPORT. LOAD_KEY as a run over its boundaries, and the busy edges of every accepted word. -/

namespace Sys2Proof.Machine

/-! ### The LOAD_KEY run (R140, R141) -/

/-- The store after edge En of a LOAD_KEY of `k` accepted over the store `w`: the key and the round keys 1 to n. -/
def expandedRoundKeys (w : RoundKeyStore) (k : Block) (n : Nat) : RoundKeyStore :=
  (List.range' 1 n).foldl expandRoundKey (writeKeyWords w k)

theorem expandedRoundKeys_zero (w : RoundKeyStore) (k : Block) : expandedRoundKeys w k 0 = writeKeyWords w k := rfl

theorem expandedRoundKeys_succ (w : RoundKeyStore) (k : Block) (n : Nat) :
    expandedRoundKeys w k (n + 1) = expandRoundKey (expandedRoundKeys w k n) (n + 1) := by
  simp [expandedRoundKeys, List.range'_1_concat, Nat.add_comm 1 n]

theorem roundKey_expandedRoundKeys (w : RoundKeyStore) (k : Block) (n : Nat) :
    roundKey (expandedRoundKeys w k n) 0 = k := by
  induction n with
  | zero => exact roundKey_writeKeyWords w k
  | succ n ih => rw [expandedRoundKeys_succ, roundKey_expandRoundKey _ _ (by omega), ih]

/-- Each KEXP step adds one round key to the correct words, whatever words stand above it. -/
theorem scheduleUpTo_expandedRoundKeys (w : RoundKeyStore) (k : Block) (n : Nat) (hn : n ≤ 10) :
    ScheduleUpTo (expandedRoundKeys w k n) (4 * (n + 1)) := by
  induction n with
  | zero => exact scheduleUpTo_writeKeyWords w k
  | succ n ih =>
    rw [expandedRoundKeys_succ]
    exact scheduleUpTo_expandRoundKey _ (n + 1) (by omega) hn (ih (by omega))

/-- The tenth round key completes the expansion of the key, and nothing of the old store is left. -/
theorem expandRoundKey_ten (w : RoundKeyStore) (k : Block) :
    expandRoundKey (expandedRoundKeys w k 9) 10 = keyExpansion k := by
  rw [← expandedRoundKeys_succ, eq_keyExpansion_of_scheduleUpTo _ (scheduleUpTo_expandedRoundKeys w k 10 (by omega)),
    roundKey_expandedRoundKeys]

/-- The state after edge En of a LOAD_KEY accepted in `s`, for n = 0 to 9 (R140, R141). -/
def keyBoundary (s : State) (n : Nat) : State :=
  { s with w := expandedRoundKeys s.w s.ports.keyIn n, kv := false, phase := .kexp, rnd := BitVec.ofNat 4 (n + 1),
           done := false, drive := s.drive.drop (n + 1) }

/-- The state after edge E10 of a LOAD_KEY accepted in `s` (R141). -/
def keyResult (s : State) : State :=
  { s with w := keyExpansion s.ports.keyIn, kv := true, phase := .idle, rnd := 0#4, done := true,
           drive := s.drive.drop 11 }

theorem keyBoundary_rnd (s : State) (n : Nat) (hn : n ≤ 9) : (keyBoundary s n).rnd.toNat = n + 1 := by
  rw [keyBoundary, BitVec.toNat_ofNat]
  omega

theorem step_keyBoundary (s : State) (n : Nat) (hn : n < 9) (hr : (keyBoundary s n).ports.rst = false) :
    step (keyBoundary s n) = .next (keyBoundary s (n + 1)) := by
  have hrnd := keyBoundary_rnd s n (by omega)
  rw [step_kexp_more _ hr rfl (by omega) (by omega), hrnd]
  simp [keyBoundary, expandedRoundKeys_succ]

theorem step_keyBoundary_final (s : State) (hr : (keyBoundary s 9).ports.rst = false) :
    step (keyBoundary s 9) = .next (keyResult s) := by
  rw [step_kexp_final _ hr rfl (keyBoundary_rnd s 9 (by omega))]
  simp [keyBoundary, keyResult, expandRoundKey_ten]

/-- LOAD_KEY at its accept edge, as one write of the state (R140). -/
theorem exec_loadKey (s : State) : exec .loadKey s =
    .next { s with w := writeKeyWords s.w s.ports.keyIn, kv := false, phase := .kexp, rnd := 1#4, done := false } :=
  rfl

theorem loadKey_boundaryRun (s : State) (ha : Accepts s 0x0001#16) :
    BoundaryRun s 9 (keyBoundary s) (keyResult s) where
  accept := by
    rw [step_of_command s _ _ .loadKey ha (.inl (by decide)) (exec_loadKey s)]
    simp [keyBoundary, expandedRoundKeys_zero, State.advance]
  round := step_keyBoundary s
  last := step_keyBoundary_final s
  drive _ := rfl
  busy _ := Phase.noConfusion
  idle := rfl

/-- Settles O35: the accept edge writes the key words, and the run is that of `loadKey_boundaryRun`. -/
theorem loadKeyCommand : Obligations.LoadKeyCommand := by
  refine ⟨fun s => ⟨_, exec_loadKey s, ?_⟩, onlyWordOf_encode .loadKey rfl,
    fun s ha hr => ⟨(loadKey_boundaryRun s ha).busyExactly hr, ?_⟩, by decide +kernel⟩
  · simp only [readWord_writeKeyWords]
    exact ⟨rfl, rfl, rfl, rfl, fun i h4 => if_neg (by omega)⟩
  · obtain ⟨hp, hn, -⟩ := (accepts_iff s _).1 ha
    rw [(loadKey_boundaryRun s ha).result hr, keyResult, ← hp, ← hn]

/-- Settles O40: the store in `keyResult` is the expansion of `key_in`. -/
theorem scheduleDependsOnTheKeyAlone : Obligations.ScheduleDependsOnTheKeyAlone :=
  fun s s' ha ha' hk hr hr' => ⟨_, _, (loadKey_boundaryRun s ha).result hr, (loadKey_boundaryRun s' ha').result hr',
    congrArg keyExpansion hk, rfl, rfl⟩

/-! ### The busy edges of every accepted word (R290) -/

theorem busyExactly_zero {s t : State} (h : step s = .next t) (hp : t.phase = .idle) : BusyExactly 0 s := by
  intro n hn
  obtain rfl := Nat.le_zero.1 hn
  exact ⟨t, (runEdges_succ 0 s t h).trans (runEdges_zero t), by simp [hp]⟩

/-- A command that starts no phase leaves the sequencer idle. -/
theorem busyExactly_of_singleCycle (s : State) (i : Instr) (ha : Accepts s (encode i)) (he : commandError i s.kv = none)
    (hs : startedPhase i = none) : BusyExactly 0 s := by
  obtain ⟨-, t, -, -, -, -, -, ht⟩ := step_of_noError s _ ha ((errorCause_encode i _).trans he)
  exact busyExactly_zero ht (by rw [phase_after_accept i ht ha he, hs]; rfl)

/-- Settles O58: an error and a single-cycle command leave the core idle, and the three others are boundary runs. -/
theorem busyEdgesOfEveryCommand : Obligations.BusyEdgesOfEveryCommand := by
  intro s c ha hr
  cases he : errorCause c s.kv with
  | some e =>
    rw [busyEdgesOf_of_error c _ e he]
    exact busyExactly_zero (step_of_error s c e ha he) ha.idle
  | none =>
    obtain ⟨i, rfl, -, hn⟩ := errorCause_eq_none c s.kv he
    rw [busyEdgesOf_encode i _ hn] at hr ⊢
    cases i with
    | loadKey => exact (loadKey_boundaryRun s ha).busyExactly hr
    | encrypt => exact (encrypt_boundaryRun s ha (commandError_encrypt_none _ hn)).busyExactly hr
    | decrypt => exact (decrypt_boundaryRun s ha (commandError_encrypt_none _ hn)).busyExactly hr
    | _ => exact busyExactly_of_singleCycle s _ ha hn rfl

end Sys2Proof.Machine
end

section
/-! SUPPORT. The field laws: the multiplier and the product of R100 are additive in each operand, so they agree when
they agree on single bits, and so do the two sides of the associative law. -/

namespace Sys2Proof.Machine

/-! ### The product of R100 -/

/-- A fold that XORs conditional terms is additive in the start value and in the terms. -/
theorem foldl_xor_additive {n : Nat} {α : Type} (f g h : α → BitVec n) (hf : ∀ i, h i = f i ^^^ g i) (l : List α)
    (p q : BitVec n) : l.foldl (fun a i => a ^^^ h i) (p ^^^ q) =
      l.foldl (fun a i => a ^^^ f i) p ^^^ l.foldl (fun a i => a ^^^ g i) q := by
  induction l generalizing p q with
  | nil => rfl
  | cons i l ih =>
    rw [List.foldl_cons, List.foldl_cons, List.foldl_cons, ← ih, hf]
    congr 1
    ac_rfl

/-- One term of the carry-less product (R100). -/
def productTerm (a b : Byte) (i : Nat) : BitVec 16 := if b.getLsbD i then a.setWidth 16 <<< i else 0#16

theorem xor_productTerm (a b : Byte) (i : Nat) (p : BitVec 16) :
    (if b.getLsbD i then p ^^^ (a.setWidth 16 <<< i) else p) = p ^^^ productTerm a b i := by
  unfold productTerm
  split_ifs
  · rfl
  · exact BitVec.xor_zero.symm

theorem carrylessProduct_eq (a b : Byte) :
    carrylessProduct a b = (List.range 8).foldl (fun p i => p ^^^ productTerm a b i) 0#16 := by
  simp only [carrylessProduct, xor_productTerm]

theorem carrylessProduct_xor_left (a a' b : Byte) :
    carrylessProduct (a ^^^ a') b = carrylessProduct a b ^^^ carrylessProduct a' b := by
  simp only [carrylessProduct_eq]
  refine foldl_xor_additive (productTerm a b) (productTerm a' b) _ (fun i => ?_) _ 0#16 0#16
  unfold productTerm
  split_ifs
  · rw [BitVec.setWidth_xor, BitVec.shiftLeft_xor_distrib]
  · rfl

theorem carrylessProduct_xor_right (a b b' : Byte) :
    carrylessProduct a (b ^^^ b') = carrylessProduct a b ^^^ carrylessProduct a b' := by
  simp only [carrylessProduct_eq]
  refine foldl_xor_additive (productTerm a b) (productTerm a b') _ (fun i => ?_) _ 0#16 0#16
  simp only [productTerm, BitVec.getLsbD_xor]
  cases b.getLsbD i <;> cases b'.getLsbD i <;> simp

/-- A fold of additive steps is additive. -/
theorem foldl_additive {n : Nat} {α : Type} (f : BitVec n → α → BitVec n)
    (hf : ∀ p q i, f (p ^^^ q) i = f p i ^^^ f q i) (l : List α) (p q : BitVec n) : l.foldl f (p ^^^ q) = l.foldl f p ^^^ l.foldl f q := by
  induction l generalizing p q with
  | nil => rfl
  | cons i l ih => rw [List.foldl_cons, List.foldl_cons, List.foldl_cons, hf, ih]

theorem reduceBy11B_xor (p q : BitVec 16) : reduceBy11B (p ^^^ q) = reduceBy11B p ^^^ reduceBy11B q := by
  rw [reduceBy11B, foldl_additive, BitVec.setWidth_xor]
  · rfl
  · intro p q i
    simp only [BitVec.getLsbD_xor]
    generalize 0x11B#16 <<< i = m
    cases p.getLsbD (8 + i) <;> cases q.getLsbD (8 + i) <;> simp
    · ac_rfl
    · ac_rfl
    · rw [show p ^^^ m ^^^ (q ^^^ m) = p ^^^ q ^^^ (m ^^^ m) by ac_rfl, BitVec.xor_self, BitVec.xor_zero]

/-- Two functions of two bytes, additive in each, agree when they agree on single bits. -/
theorem biadditive_ext (f g : Byte → Byte → Byte) (hf : ∀ x y z, f (x ^^^ y) z = f x z ^^^ f y z)
    (hf' : ∀ x y z, f x (y ^^^ z) = f x y ^^^ f x z) (hg : ∀ x y z, g (x ^^^ y) z = g x z ^^^ g y z)
    (hg' : ∀ x y z, g x (y ^^^ z) = g x y ^^^ g x z) (h : ∀ m ∈ singleBits, ∀ n ∈ singleBits, f m n = g m n)
    (x y : Byte) : f x y = g x y :=
  additive_ext (f · y) (g · y) (fun a b => hf a b y) (fun a b => hg a b y)
    (fun m hm => additive_ext (f m) (g m) (hf' m) (hg' m) (h m hm) y) x

/-- Settles O27: both sides are additive in each operand. -/
theorem gfmulIsTheProductModulo11B : Obligations.GfmulIsTheProductModulo11B :=
  biadditive_ext gfmul (fun a b => reduceBy11B (carrylessProduct a b)) gfmul_xor_left gfmul_xor_right
    (fun a a' b => by rw [carrylessProduct_xor_left, reduceBy11B_xor])
    (fun a b b' => by rw [carrylessProduct_xor_right, reduceBy11B_xor]) (by decide +kernel)

/-! ### The field laws (R104) -/

/-- Multiplication by x is the shift of R102. -/
theorem gfmul_two (a : Byte) : gfmul a 0x02#8 = xtime a := by
  revert a
  decide +kernel

theorem xtime_xor (a b : Byte) : xtime (a ^^^ b) = xtime a ^^^ xtime b := by
  simp only [← gfmul_two, gfmul_xor_left]

/-- Both sides are additive in each operand. -/
theorem gfmul_xtime_left (a b : Byte) : gfmul (xtime a) b = xtime (gfmul a b) :=
  biadditive_ext (fun x y => gfmul (xtime x) y) (fun x y => xtime (gfmul x y))
    (fun x y z => by rw [xtime_xor, gfmul_xor_left]) (fun x => gfmul_xor_right (xtime x))
    (fun x y z => by rw [gfmul_xor_left, xtime_xor]) (fun x y z => by rw [gfmul_xor_right, xtime_xor])
    (by decide +kernel) a b

/-- The single bits are the powers of x (R100). -/
theorem singleBits_eq_powers : singleBits = (List.range 8).map fun n => xtime^[n] 1#8 := by decide

theorem gfmul_assoc_power (n : Nat) (b c : Byte) :
    gfmul (gfmul (xtime^[n] 1#8) b) c = gfmul (xtime^[n] 1#8) (gfmul b c) := by
  induction n with
  | zero => simp only [Function.iterate_zero, id, one_gfmul]
  | succ n ih => simp only [Function.iterate_succ_apply', gfmul_xtime_left, ih]

/-- Both sides are additive in `a`, and associativity passes from a power of x to the next. -/
theorem gfmul_assoc (a b c : Byte) : gfmul (gfmul a b) c = gfmul a (gfmul b c) := by
  refine additive_ext (fun x => gfmul (gfmul x b) c) (gfmul · (gfmul b c))
    (fun x y => by simp only [gfmul_xor_left]) (fun x y => gfmul_xor_left x y _) (fun m hm => ?_) a
  rw [singleBits_eq_powers, List.mem_map] at hm
  obtain ⟨n, -, rfl⟩ := hm
  exact gfmul_assoc_power n b c

/-- The field inverse, with 0 for 0: the affine map of R105 solved for the byte it is applied to. `gfmul_gfInverse` ties
it to the multiplier, `sbox_eq_affine` to the table. -/
def gfInverse (a : Byte) : Byte :=
  (sbox a).rotateLeft 1 ^^^ (sbox a).rotateLeft 3 ^^^ (sbox a).rotateLeft 6 ^^^ 0x05#8

theorem gfmul_gfInverse (a : Byte) (h : a ≠ 0#8) : gfmul a (gfInverse a) = 1#8 := by
  revert a
  decide +kernel

theorem gfInverse_zero : gfInverse 0#8 = 0#8 := by decide

/-- An inverse is unique, by the associative and the commutative law. -/
theorem inverse_unique (a b b' : Byte) (h : gfmul a b = 1#8) (h' : gfmul a b' = 1#8) : b' = b :=
  calc b' = gfmul (gfmul b a) b' := by rw [gfmul_comm b a, h, one_gfmul]
    _ = b := by rw [gfmul_assoc, h', gfmul_one]

/-- Settles O28: the inverse is `gfInverse`, unique by the other laws, and the examples are evaluated. -/
theorem gfmulFieldLaws : Obligations.GfmulFieldLaws :=
  ⟨fun a => ⟨gfmul_zero a, zero_gfmul a, gfmul_one a⟩, gfmul_comm, gfmul_xor_right, gfmul_assoc,
    fun a ha => ⟨gfInverse a, gfmul_gfInverse a ha, fun b' => inverse_unique a _ b' (gfmul_gfInverse a ha)⟩,
    gfmul_two, by decide⟩

/-! ### The tables (R105, R108) -/

theorem sbox_eq_affine (x : Byte) : let b := gfInverse x
    sbox x = b ^^^ b.rotateLeft 1 ^^^ b.rotateLeft 2 ^^^ b.rotateLeft 3 ^^^ b.rotateLeft 4 ^^^ 0x63#8 := by
  revert x
  decide +kernel

/-- Settles O25: the byte under the affine map is `gfInverse x`. -/
theorem sboxIsInversionThenAffine : Obligations.SboxIsInversionThenAffine := fun x => by
  refine ⟨gfInverse x, ?_, sbox_eq_affine x⟩
  split_ifs with h
  · rw [h, gfInverse_zero]
  · exact gfmul_gfInverse x h

/-- On values of one width, a function undone by another also undoes it: an injective map of a finite type to itself is
onto. -/
theorem undoes_of_undone {n : Nat} {f g : BitVec n → BitVec n} (h : ∀ x, g (f x) = x) (y : BitVec n) : f (g y) = y :=
  Function.LeftInverse.rightInverse_of_surjective (f := g) (g := f) h
    (Finite.injective_iff_surjective.1 (Function.LeftInverse.injective h)) y

theorem sbox_invSbox (y : Byte) : sbox (invSbox y) = y := undoes_of_undone invSbox_sbox y

/-- Settles O26: the tables undo each other, and no entry is its index or the complement of it. -/
theorem sboxTablesAreInversePermutations : Obligations.SboxTablesAreInversePermutations :=
  ⟨invSbox_sbox, sbox_invSbox, by decide +kernel, by decide +kernel⟩

end Sys2Proof.Machine
end

section
/-! SUPPORT. The laws of the round transforms cell by cell, and the ciphers as inverse permutations of the blocks. -/

namespace Sys2Proof.Machine

/-! ### The inverse laws, the commuting pairs and linearity (R167) -/

theorem cell_mixColumns (v : Block) (r c : Nat) (hr : r < 4) (hc : c < 4) : cell (mixColumns v) r c =
    circulantRow 0x02#8 0x03#8 0x01#8 0x01#8 r (cell v 0 c) (cell v 1 c) (cell v 2 c) (cell v 3 c) :=
  cell_mixWith _ _ _ _ v r c hr hc

theorem cell_invMixColumns (v : Block) (r c : Nat) (hr : r < 4) (hc : c < 4) : cell (invMixColumns v) r c =
    circulantRow 0x0E#8 0x0B#8 0x0D#8 0x09#8 r (cell v 0 c) (cell v 1 c) (cell v 2 c) (cell v 3 c) :=
  cell_mixWith _ _ _ _ v r c hr hc

/-- A product of every column with one matrix is linear. -/
theorem mixWith_xor (k0 k1 k2 k3 : Byte) (u v : Block) :
    mixWith k0 k1 k2 k3 (u ^^^ v) = mixWith k0 k1 k2 k3 u ^^^ mixWith k0 k1 k2 k3 v :=
  eq_of_cell _ _ fun r c hr hc => by
    simp only [cell_xor, cell_mixWith _ _ _ _ _ r c hr hc, circulantRow_xor]

/-- A substitution of every byte does not see where the bytes stand. -/
theorem subBytes_shiftRows (v : Block) : subBytes (shiftRows v) = shiftRows (subBytes v) :=
  eq_of_cell _ _ fun r c hr hc => by
    rw [cell_subBytes _ r c hr hc, cell_shiftRows v r c hr hc, cell_shiftRows _ r c hr hc,
      cell_subBytes v r _ hr (by omega)]

theorem invSubBytes_invShiftRows (v : Block) : invSubBytes (invShiftRows v) = invShiftRows (invSubBytes v) :=
  eq_of_cell _ _ fun r c hr hc => by
    rw [cell_invSubBytes _ r c hr hc, cell_invShiftRows v r c hr hc, cell_invShiftRows _ r c hr hc,
      cell_invSubBytes v r _ hr (by omega)]

/-- Settles O45: each transform is undone by its inverse and so undoes it too. -/
theorem inverseLawsOfTheTransforms : Obligations.InverseLawsOfTheTransforms :=
  ⟨fun v => ⟨invSubBytes_subBytes v, undoes_of_undone invSubBytes_subBytes v⟩,
    fun v => ⟨invShiftRows_shiftRows v, undoes_of_undone invShiftRows_shiftRows v⟩,
    fun v => ⟨invMixColumns_mixColumns v, undoes_of_undone invMixColumns_mixColumns v⟩,
    addRoundKey_addRoundKey, fun v => ⟨subBytes_shiftRows v, invSubBytes_invShiftRows v⟩,
    fun v u => ⟨mixWith_xor _ _ _ _ v u, mixWith_xor _ _ _ _ v u⟩⟩

/-! ### MIX_COLUMNS and INV_MIX_COLUMNS (R164, R165, R173, R174) -/

/-- A row of a circulant matrix times four equal bytes is the sum of its coefficients times the byte. -/
theorem circulantRow_equal (k0 k1 k2 k3 : Byte) (r : Nat) (a : Byte) :
    circulantRow k0 k1 k2 k3 r a a a a = gfmul (k0 ^^^ k1 ^^^ k2 ^^^ k3) a := by
  unfold circulantRow
  split <;> simp only [gfmul_xor_left] <;> ac_rfl

/-- Coefficients with sum 1 leave columns of four equal bytes as they are (D33). -/
theorem mixWith_of_equal_rows (k0 k1 k2 k3 : Byte) (hk : k0 ^^^ k1 ^^^ k2 ^^^ k3 = 1#8) (v : Block)
    (h : ∀ r c, r < 4 → c < 4 → cell v r c = cell v 0 c) : mixWith k0 k1 k2 k3 v = v :=
  eq_of_cell _ _ fun r c hr hc => by
    rw [cell_mixWith _ _ _ _ v r c hr hc, h 1 c (by omega) hc, h 2 c (by omega) hc, h 3 c (by omega) hc,
      circulantRow_equal, hk, one_gfmul, h r c hr hc]

/-- Settles O43: the eight sums are the rows of the two matrices, whose coefficients sum to 1. -/
theorem mixColumnsCommands : Obligations.MixColumnsCommands := by
  refine ⟨fun _ => rfl, fun _ => rfl, fun v c hc => ?_, onlyWordOf_encode .mixColumns rfl,
    onlyWordOf_encode .invMixColumns rfl, fun v h => ?_, invMixColumns_mixColumns, by decide +kernel⟩
  · have mix (r : Nat) (hr : r < 4) := cell_mixColumns v r c hr hc
    have inv (r : Nat) (hr : r < 4) := cell_invMixColumns v r c hr hc
    exact ⟨mix 0 (by omega), mix 1 (by omega), mix 2 (by omega), mix 3 (by omega),
      inv 0 (by omega), inv 1 (by omega), inv 2 (by omega), inv 3 (by omega)⟩
  · have rows (r c : Nat) (hr : r < 4) (hc : c < 4) : cell v r c = cell v 0 c := by
      obtain ⟨h01, h12, h23⟩ := h c hc
      interval_cases r <;> simp only [h01, h12, h23]
    exact ⟨mixWith_of_equal_rows _ _ _ _ (by decide) v rows, mixWith_of_equal_rows _ _ _ _ (by decide) v rows⟩

/-! ### The two ciphers (R196) -/

/-- Settles O47: the inverse cipher undoes the cipher, so the cipher undoes it too. -/
theorem inverseCipherUndoesTheCipher : Obligations.InverseCipherUndoesTheCipher := fun w x =>
  ⟨invCipher_cipher w x, undoes_of_undone (invCipher_cipher w) x⟩

end Sys2Proof.Machine
end

section
/-! SUPPORT. The stepwise command sequences: a list of commands composes, and the commands of a round perform that round
on ST. -/

namespace Sys2Proof.Machine

/-! ### Lists of commands -/

theorem execAll_cons (i : Instr) (l : List Instr) (s t : State) (h : exec i s = .next t) :
    execAll (i :: l) s = execAll l t := by
  rw [execAll, h]

/-- A list of commands after another starts where that one ends. -/
theorem execAll_append (l m : List Instr) (s t : State) (h : execAll l s = .next t) :
    execAll (l ++ m) s = execAll m t := by
  induction l generalizing s with
  | nil => cases h; rfl
  | cons i l ih =>
    obtain ⟨u, hu, -⟩ := exec_next i s
    rw [execAll_cons i l s u hu] at h
    rw [List.cons_append, execAll_cons i _ s u hu, ih u h]

/-- The state `s` with `v` in ST after a completed command. -/
def withBlock (s : State) (v : Block) : State := (s.writeSt v).complete

theorem exec_addRoundKey_withBlock (s : State) (v : Block) (r : Nibble) (hk : s.kv = true) (hr : r.toNat ≤ 10) :
    exec (.addRoundKey r) (withBlock s v) = .next (withBlock s (addRoundKey v (roundKey s.w r.toNat))) :=
  congrArg Host.Outcome.next (requireIndexAndKey_valid (withBlock s v) _ r hr hk)

section
variable (s : State) (hk : s.kv = true)
include hk

theorem execAll_roundCommands (v : Block) (r : Nibble) (hr : r.toNat ≤ 10) :
    execAll (roundCommands r) (withBlock s v) = .next (withBlock s (fullRound v (roundKey s.w r.toNat))) := by
  rw [roundCommands, execAll_cons _ _ _ (withBlock s (subBytes v)) rfl,
    execAll_cons _ _ _ (withBlock s (shiftRows (subBytes v))) rfl,
    execAll_cons _ _ _ (withBlock s (mixColumns (shiftRows (subBytes v)))) rfl,
    execAll_cons _ _ _ _ (exec_addRoundKey_withBlock s _ r hk hr)]
  rfl

theorem execAll_invRoundCommands (v : Block) (r : Nibble) (hr : r.toNat ≤ 10) :
    execAll (invRoundCommands r) (withBlock s v) = .next (withBlock s (invRound v (roundKey s.w r.toNat))) := by
  rw [invRoundCommands, execAll_cons _ _ _ (withBlock s (invShiftRows v)) rfl,
    execAll_cons _ _ _ (withBlock s (invSubBytes (invShiftRows v))) rfl,
    execAll_cons _ _ _ _ (exec_addRoundKey_withBlock s _ r hk hr)]
  rfl

theorem execAll_finalRoundCommands (v : Block) :
    execAll finalRoundCommands (withBlock s v) = .next (withBlock s (finalRound v (roundKey s.w 10))) := by
  rw [finalRoundCommands, execAll_cons _ _ _ (withBlock s (subBytes v)) rfl,
    execAll_cons _ _ _ (withBlock s (shiftRows (subBytes v))) rfl,
    execAll_cons _ _ _ _ (exec_addRoundKey_withBlock s _ 10#4 hk (by decide))]
  rfl

theorem execAll_invFinalRoundCommands (v : Block) :
    execAll invFinalRoundCommands (withBlock s v) = .next (withBlock s (invFinalRound v (roundKey s.w 0))) := by
  rw [invFinalRoundCommands, execAll_cons _ _ _ (withBlock s (invShiftRows v)) rfl,
    execAll_cons _ _ _ (withBlock s (invSubBytes (invShiftRows v))) rfl,
    execAll_cons _ _ _ _ (exec_addRoundKey_withBlock s _ 0#4 hk (by decide))]
  rfl

/-- The first two commands of both sequences: the block from `din`, XORed with a round key. -/
theorem execAll_loadState_addRoundKey (r : Nibble) (hr : r.toNat ≤ 10) :
    execAll [.loadState, .addRoundKey r] s =
      .next (withBlock s (addRoundKey s.ports.din (roundKey s.w r.toNat))) := by
  rw [execAll_cons _ _ _ (withBlock s s.ports.din) rfl,
    execAll_cons _ _ _ _ (exec_addRoundKey_withBlock s _ r hk hr)]
  rfl

end

/-- Commands that perform a round each, one list after another, perform the rounds in their order. -/
theorem execAll_flatMap_rounds (s : State) (commands : Nibble → List Instr) (round : Block → Block → Block)
    (rs : List Nibble)
    (h : ∀ r ∈ rs, ∀ v, execAll (commands r) (withBlock s v) = .next (withBlock s (round v (roundKey s.w r.toNat))))
    (v : Block) : execAll (rs.flatMap commands) (withBlock s v) =
      .next (withBlock s (rs.foldl (fun v r => round v (roundKey s.w r.toNat)) v)) := by
  induction rs generalizing v with
  | nil => rfl
  | cons r rs ih =>
    rw [List.flatMap_cons, execAll_append _ _ _ _ (h r List.mem_cons_self v),
      ih (fun r' hr' => h r' (List.mem_cons_of_mem _ hr'))]
    rfl

/-! ### The two sequences (R89, R207) -/

theorem encryptStepwise_eq : encryptStepwise = [.loadState, .addRoundKey 0#4] ++
    ([1#4, 2#4, 3#4, 4#4, 5#4, 6#4, 7#4, 8#4, 9#4].flatMap roundCommands ++ finalRoundCommands) := rfl

theorem decryptStepwise_eq : decryptStepwise = [.loadState, .addRoundKey 10#4] ++
    ([9#4, 8#4, 7#4, 6#4, 5#4, 4#4, 3#4, 2#4, 1#4].flatMap invRoundCommands ++ invFinalRoundCommands) := rfl

theorem execAll_encryptStepwise (s : State) (hk : s.kv = true) :
    execAll encryptStepwise s = .next (withBlock s (cipher s.w s.ports.din)) := by
  have rounds := execAll_flatMap_rounds s roundCommands fullRound [1#4, 2#4, 3#4, 4#4, 5#4, 6#4, 7#4, 8#4, 9#4]
    fun r hr v => execAll_roundCommands s hk v r (by revert r; decide)
  rw [encryptStepwise_eq, execAll_append _ _ _ _ (execAll_loadState_addRoundKey s hk 0#4 (by decide)),
    execAll_append _ _ _ _ (rounds _), execAll_finalRoundCommands s hk]
  rfl

theorem execAll_decryptStepwise (s : State) (hk : s.kv = true) :
    execAll decryptStepwise s = .next (withBlock s (invCipher s.w s.ports.din)) := by
  have rounds := execAll_flatMap_rounds s invRoundCommands invRound [9#4, 8#4, 7#4, 6#4, 5#4, 4#4, 3#4, 2#4, 1#4]
    fun r hr v => execAll_invRoundCommands s hk v r (by revert r; decide)
  rw [decryptStepwise_eq, execAll_append _ _ _ _ (execAll_loadState_addRoundKey s hk 10#4 (by decide)),
    execAll_append _ _ _ _ (rounds _), execAll_invFinalRoundCommands s hk]
  rfl

/-- The end of a run of the sequencer, from an idle state, is one completed write of ST but for the edges passed. -/
theorem withBlock_eq_of_idle (s : State) (v : Block) (hp : s.phase = .idle) (hn : s.rnd = 0#4) :
    withBlock s v = { s with st := v, phase := .idle, rnd := 0#4, done := true } := by
  rw [← hp, ← hn]
  rfl

/-- Settles O54: both ways leave the cipher of `din` in ST and an idle sequencer. -/
theorem stepwiseCommandsEqualTheSequencer : Obligations.StepwiseCommandsEqualTheSequencer := by
  refine ⟨fun s ha hk hr => ⟨_, _, (encrypt_boundaryRun s ha hk).result hr, execAll_encryptStepwise s hk, ?_⟩,
    fun s ha hk hr => ⟨_, _, (decrypt_boundaryRun s ha hk).result hr, execAll_decryptStepwise s hk, ?_⟩⟩
  all_goals
    obtain ⟨hp, hn, -⟩ := (accepts_iff s _).1 ha
    exact withBlock_eq_of_idle s _ hp hn

end Sys2Proof.Machine
end
